-- ==== Sys2Proof/Word.lean ====
section
/-! DEFINITION. The machine's word types. Widths are facts of the hardware (spec/00_scope.md R6, R7), not parameters. -/

namespace Sys2Proof

/-- A 32-bit pattern: a register value, a pc value, a memory word, an instruction word, an ALU operand
or result (R7: XLEN = ILEN = 32). `w.toNat` is the spec's u(w), `w.toInt` its s(w). -/
abbrev Word := BitVec 32

/-- One byte of a word, only for the memory's plain-data form (log entry 5): no instruction sees a byte (R30). -/
abbrev Byte := BitVec 8

/-- The index of a general register, 0 to 31 (R6: NREGS = 32; R11). -/
abbrev Reg := Fin 32

end Sys2Proof
end

