-- ==== Sys2Proof/Config.lean ====
section
/-! DEFINITION. What is fixed for one machine: the parameters of spec/00_scope.md R6, and the one free value.
The values stand in Sys2Proof/Decode.lean (`config`), where a repair may mend a number. Widths (XLEN, NREGS, ILEN)
are types (Word.lean). -/

namespace Sys2Proof

/-- The parameters of R6. None is state and none changes during a run (R24). -/
structure Config where
  /-- MEM_WORDS: number of 32-bit words of memory (R6, R22; log entry 3). -/
  memWords : Nat
  /-- OP_RTYPE: opcode of every register-type instruction (R6). -/
  opRType : BitVec 6
  /-- OP_J (R6; log entry 1). -/
  opJ : BitVec 6
  /-- OP_BEQ (R6; log entry 1). -/
  opBeq : BitVec 6
  /-- OP_ADDI (R6; log entry 1). -/
  opAddi : BitVec 6
  /-- OP_SLTI (R6; log entry 1). -/
  opSlti : BitVec 6
  /-- OP_SLTIU (R6; log entry 1). -/
  opSltiu : BitVec 6
  /-- OP_LUI (R6; log entry 1). -/
  opLui : BitVec 6
  /-- OP_LW (R6; log entry 1). -/
  opLw : BitVec 6
  /-- OP_SW (R6; log entry 1). -/
  opSw : BitVec 6
  /-- FN_ADD, a funct the Legality Checker admits (R6, R47; log entry 2). -/
  fnAdd : BitVec 6
  /-- FN_SUB (R6, R47; log entry 2). -/
  fnSub : BitVec 6
  /-- FN_AND (R6, R47; log entry 2). -/
  fnAnd : BitVec 6
  /-- FN_OR (R6, R47; log entry 2). -/
  fnOr : BitVec 6
  /-- FN_SLT (R6, R47; log entry 2). -/
  fnSlt : BitVec 6
  /-- FN_SLTU (R6, R47; log entry 2). -/
  fnSltu : BitVec 6
  /-- SLT_TRUE (R6, R67; log entry 9). -/
  sltTrue : Word
  /-- SLT_FALSE (R6, R67; log entry 9). -/
  sltFalse : Word
  /-- PC_RESET, the pc at launch: OPEN in R6; the model's value is log entry 8. -/
  pcReset : Word
deriving DecidableEq, Repr

/-- MEM_BYTES (R6): the size of the byte-addressed space. -/
def Config.memBytes (c : Config) : Nat := 4 * c.memWords

/-- The eight opcodes the Legality Checker admits beside OP_RTYPE (R55). -/
def Config.wholeOpcodes (c : Config) : List (BitVec 6) :=
  [c.opJ, c.opBeq, c.opAddi, c.opSlti, c.opSltiu, c.opLui, c.opLw, c.opSw]

/-- The six functs the Legality Checker admits (R55). -/
def Config.functs (c : Config) : List (BitVec 6) :=
  [c.fnAdd, c.fnSub, c.fnAnd, c.fnOr, c.fnSlt, c.fnSltu]

/-- What the rules need of the parameters (R6: the opcodes pairwise distinct and, beside OP_RTYPE = 0, nonzero;
the functs pairwise distinct; the memory inside the 32-bit address space). -/
abbrev Config.Valid (c : Config) : Prop :=
  (c.opRType :: c.wholeOpcodes).Nodup ∧ c.opRType = 0 ∧ c.functs.Nodup ∧ c.memBytes ≤ 2 ^ 32

/-- FREE VALUE: what the Memory Access Unit's load output holds in a cycle with MemRead = 0, for the address it is
given (R70: "the load value has no defined content; no instruction consumes it"; D14, U6; log entry 14). It has no
body, so nothing can be proved of its value. -/
opaque Config.unreadLoadValue : Word → Word

end Sys2Proof
end

