-- ==== Sys2Proof/Syntax.lean ====
section
/-! DEFINITION. The fourteen instructions (spec/30_encoding.md R46, spec/opcode_table.json), one constructor a row. -/

namespace Sys2Proof

/-- An instruction with its operands as its fields give them (R41, R45). Bits the hardware ignores (10:6 of an R-type
word, rs of lui: R49) are no operands. Every value of a field is a value its bits can hold, so every term is a
well-formed instruction. -/
inductive Instr where
  /-- `add $rd, $rs, $rt` (R81) -/
  | add (rd rs rt : Reg)
  /-- `sub $rd, $rs, $rt` (R82) -/
  | sub (rd rs rt : Reg)
  /-- `and $rd, $rs, $rt` (R83) -/
  | and (rd rs rt : Reg)
  /-- `or $rd, $rs, $rt`: computes XOR (R84) -/
  | or (rd rs rt : Reg)
  /-- `slt $rd, $rs, $rt` (R85) -/
  | slt (rd rs rt : Reg)
  /-- `sltu $rd, $rs, $rt` (R86) -/
  | sltu (rd rs rt : Reg)
  /-- `addi $rt, $rs, imm` (R91) -/
  | addi (rt rs : Reg) (imm : BitVec 16)
  /-- `slti $rt, $rs, imm` (R92) -/
  | slti (rt rs : Reg) (imm : BitVec 16)
  /-- `sltiu $rt, $rs, imm` (R93) -/
  | sltiu (rt rs : Reg) (imm : BitVec 16)
  /-- `lui $rt, imm` (R94) -/
  | lui (rt : Reg) (imm : BitVec 16)
  /-- `lw $rt, imm($rs)` (R97) -/
  | lw (rt rs : Reg) (imm : BitVec 16)
  /-- `sw $rt, imm($rs)` (R98) -/
  | sw (rt rs : Reg) (imm : BitVec 16)
  /-- `beq $rs, $rt, off`: `imm` is the signed word offset (R101) -/
  | beq (rs rt : Reg) (imm : BitVec 16)
  /-- `j addr`: `target` is bits 27:2 of the byte address (R102) -/
  | j (target : BitVec 26)
deriving DecidableEq, Repr

end Sys2Proof
end

