-- ==== Sys2Proof/Decode.lean ====
section
/-! DEFINITION. The parameter values; the Field Partitioner, the Legality Checker and the flat decoder of
spec/30_encoding.md; then the encoder, from the same tables. -/

namespace Sys2Proof

/-- The parameters of R6 with the values the spec gives them, MEM_WORDS by C1 and D3. Marks: the opcode numbers but
opRType are PRESUMED (log entry 1), the functs and memWords DEDUCED (2, 3), sltTrue and sltFalse PRESUMED (9), pcReset
DESIGN CHOICE (8). -/
def config : Config where
  memWords := 65536
  opRType := 0x00#6
  opJ := 0x02#6
  opBeq := 0x04#6
  opAddi := 0x08#6
  opSlti := 0x0A#6
  opSltiu := 0x0B#6
  opLui := 0x0F#6
  opLw := 0x23#6
  opSw := 0x2B#6
  fnAdd := 0x20#6
  fnSub := 0x21#6
  fnAnd := 0x24#6
  fnOr := 0x25#6
  fnSlt := 0x2A#6
  fnSltu := 0x2B#6
  sltTrue := 1#32
  sltFalse := 0#32
  pcReset := 0#32

/-! ## Bytes of a word -/

/-- The word four bytes make, the first at the lowest address and least significant (DESIGN CHOICE, log entry 5: no
instruction can tell, R30). -/
def wordOfBytes (b0 b1 b2 b3 : Byte) : Word := b3 ++ b2 ++ b1 ++ b0

/-- Byte `k` of a word in the same order, k = 0 to 3. -/
def byteOfWord (w : Word) (k : Nat) : Byte := w.extractLsb' (8 * k) 8

/-! ## Fields -/

/-- The register a 5-bit field names (R41). -/
def regOfBits (b : BitVec 5) : Reg := ⟨b.toNat, b.isLt⟩

/-- The 5-bit field of a register. -/
def bitsOfReg (r : Reg) : BitVec 5 := BitVec.ofNat 5 r.val

/-- The seven overlapping fields of a word (R41). -/
structure Fields where
  opcode : BitVec 6
  rs : Reg
  rt : Reg
  rd : Reg
  funct : BitVec 6
  imm : BitVec 16
  target : BitVec 26
deriving DecidableEq, Repr

/-- Field Partitioner (R57): all seven fields of every word, whatever its format. -/
def partition (w : Word) : Fields where
  opcode := w.extractLsb' 26 6
  rs := regOfBits (w.extractLsb' 21 5)
  rt := regOfBits (w.extractLsb' 16 5)
  rd := regOfBits (w.extractLsb' 11 5)
  funct := w.extractLsb' 0 6
  imm := w.extractLsb' 0 16
  target := w.extractLsb' 0 26

/-- Legality Checker (R55): it looks at opcode and funct and at no other bit (R49). -/
def legal (w : Word) : Bool :=
  let f := partition w
  if f.opcode = config.opRType then config.functs.contains f.funct
  else config.wholeOpcodes.contains f.opcode

/-! ## Decoder -/

/-- Why bytes are no instruction. Each is an illegal word (R48), but `tooShort`, which no fetch meets. -/
inductive DecodeError where
  /-- opcode 0 with a funct outside the six of R46 -/
  | illegalFunct (funct : BitVec 6)
  /-- an opcode outside the nine of R46 -/
  | illegalOpcode (opcode : BitVec 6)
  /-- fewer than four bytes -/
  | tooShort
deriving DecidableEq, Repr

/-- The opcode-0 words, by funct (R50). -/
def decodeRType (f : Fields) : Except DecodeError Instr :=
  if f.funct = config.fnAdd then .ok (.add f.rd f.rs f.rt)
  else if f.funct = config.fnSub then .ok (.sub f.rd f.rs f.rt)
  else if f.funct = config.fnAnd then .ok (.and f.rd f.rs f.rt)
  else if f.funct = config.fnOr then .ok (.or f.rd f.rs f.rt)
  else if f.funct = config.fnSlt then .ok (.slt f.rd f.rs f.rt)
  else if f.funct = config.fnSltu then .ok (.sltu f.rd f.rs f.rt)
  else .error (.illegalFunct f.funct)

/-- The decoder of R50, total on all 2^32 words. -/
def decode (w : Word) : Except DecodeError Instr :=
  let f := partition w
  if f.opcode = config.opRType then decodeRType f
  else if f.opcode = config.opJ then .ok (.j f.target)
  else if f.opcode = config.opBeq then .ok (.beq f.rs f.rt f.imm)
  else if f.opcode = config.opAddi then .ok (.addi f.rt f.rs f.imm)
  else if f.opcode = config.opSlti then .ok (.slti f.rt f.rs f.imm)
  else if f.opcode = config.opSltiu then .ok (.sltiu f.rt f.rs f.imm)
  else if f.opcode = config.opLui then .ok (.lui f.rt f.imm)
  else if f.opcode = config.opLw then .ok (.lw f.rt f.rs f.imm)
  else if f.opcode = config.opSw then .ok (.sw f.rt f.rs f.imm)
  else .error (.illegalOpcode f.opcode)

/-- The decoder on bytes, lowest address first: one instruction and the bytes after it (R40: one length). -/
def decodeBytes : List Byte → Except DecodeError (Instr × List Byte)
  | b0 :: b1 :: b2 :: b3 :: rest => (decode (wordOfBytes b0 b1 b2 b3)).map fun i => (i, rest)
  | _ => .error .tooShort

/-- What the decoder reads from the word whose bits, numbered as spec/opcode_table.json numbers them, are the low
`nbits` bits of `w`, every higher bit 0. -/
def decodeTableWord (nbits w : Nat) : Option Instr :=
  let word := BitVec.ofNat 32 (w % 2 ^ nbits)
  match decodeBytes [byteOfWord word 0, byteOfWord word 1, byteOfWord word 2, byteOfWord word 3] with
  | .ok (i, _) => some i
  | .error _ => none

/-! ## Encoder -/

/-- R-type format (R42); the encoder writes 0 in the ignored bits 10:6 (R51). -/
def rWord (funct : BitVec 6) (rd rs rt : Reg) : Word :=
  config.opRType ++ bitsOfReg rs ++ bitsOfReg rt ++ bitsOfReg rd ++ 0#5 ++ funct

/-- I-type format (R43). -/
def iWord (opcode : BitVec 6) (rs rt : Reg) (imm : BitVec 16) : Word :=
  opcode ++ bitsOfReg rs ++ bitsOfReg rt ++ imm

/-- J-type format (R44). -/
def jWord (opcode : BitVec 6) (target : BitVec 26) : Word :=
  opcode ++ target

/-- The word of an instruction (R46); lui's ignored rs field is written 0 (R51). -/
def encode : Instr → Word
  | .add rd rs rt => rWord config.fnAdd rd rs rt
  | .sub rd rs rt => rWord config.fnSub rd rs rt
  | .and rd rs rt => rWord config.fnAnd rd rs rt
  | .or rd rs rt => rWord config.fnOr rd rs rt
  | .slt rd rs rt => rWord config.fnSlt rd rs rt
  | .sltu rd rs rt => rWord config.fnSltu rd rs rt
  | .addi rt rs imm => iWord config.opAddi rs rt imm
  | .slti rt rs imm => iWord config.opSlti rs rt imm
  | .sltiu rt rs imm => iWord config.opSltiu rs rt imm
  | .lui rt imm => iWord config.opLui 0 rt imm
  | .lw rt rs imm => iWord config.opLw rs rt imm
  | .sw rt rs imm => iWord config.opSw rs rt imm
  | .beq rs rt imm => iWord config.opBeq rs rt imm
  | .j target => jWord config.opJ target

/-- The word with the bits the hardware ignores set to 0 (R49): 10:6 of an opcode-0 word, 25:21 of a lui word. -/
def clearIgnored (w : Word) : Word :=
  let op := (partition w).opcode
  if op = config.opRType then w &&& 0xFFFFF83F#32
  else if op = config.opLui then w &&& 0xFC1FFFFF#32
  else w

end Sys2Proof
end

