-- ==== Sys2Proof/Machine/Flags.lean ====
section
/-! DEFINITION. The machine's one flag. -/

namespace Sys2Proof.Machine

/-- The Zero flag (spec/40_datapath.md R68): true iff the result is 0, for every operation code. It lives inside the
cycle and is not state (spec/10_state.md R18). There is no carry, overflow or sign flag. -/
def zeroFlag (result : Word) : Bool := result == 0#32

end Sys2Proof.Machine
end

