-- ==== Sys2Proof/Machine/State.lean ====
section
/-! DEFINITION. The state (spec/10_state.md R10: registers, pc, memory, and nothing else), the reasons a cycle stops,
and the state at launch. -/

namespace Sys2Proof.Machine

/-- The six halt causes, in the order of spec/60_exceptions.md R110; the names are the spec's own (D8; log entry 11).
Each halt is the hardware's own stop, so it is neither safe nor unsafe as a departure: it is none. -/
inductive HaltCause where
  /-- pc not a multiple of 4; raised by the Fetcher. -/
  | pcMisaligned
  /-- pc an aligned address outside the memory; raised by the Fetcher. -/
  | pcOutOfRange
  /-- the fetched word is not legal; raised by the Fetcher through the Legality Checker. -/
  | illegalInstruction
  /-- no control vector for the opcode; raised by the Control Decoder, unreachable in the cycle (R59). -/
  | controlDecodeFault
  /-- no ALU code for the funct; raised by the ALU Operation Selector, unreachable in the cycle (R69). -/
  | aluFunctFault
  /-- load or store address not a multiple of 4; raised by the Memory Access Unit (lw, sw). -/
  | dataMisaligned
deriving DecidableEq, Repr

/-- The code of a cause (R110, first column). -/
def HaltCause.code : HaltCause → Nat
  | .pcMisaligned => 1
  | .pcOutOfRange => 2
  | .illegalInstruction => 3
  | .controlDecodeFault => 4
  | .aluFunctFault => 5
  | .dataMisaligned => 6

/-- Why a cycle has no outcome in the spec's sources (R8: `Unspecified(reason)`). -/
inductive UnspecifiedReason where
  /-- lw or sw at an aligned address at or above 4 * MEM_WORDS (spec/20_memory.md R34). -/
  | dataAddressOutOfRange
deriving DecidableEq, Repr

/-- Why the machine stops without a next state. -/
inductive Fault where
  /-- `Halt(cause)`: the hardware's own stop, raised by the stage R110 names; the state is unchanged (R114). It is the
  spec's outcome, so it departs from nothing (safe). -/
  | halt (cause : HaltCause)
  /-- `Unspecified(reason)`: raised by lw and sw; the spec gives no next state and forbids inventing one (R34, D4).
  Safe: nothing can be proved of such a cycle's result (log entry 4). -/
  | unspecified (reason : UnspecifiedReason)
deriving DecidableEq, Repr

/-- Why an instruction is not run. -/
inductive Refusal where
  /-- An arm of `exec` without a meaning; no arm answers it. Safe. -/
  | notModelled (mnemonic : String)
deriving DecidableEq, Repr

/-- Memory as plain data: byte cells of the word array (R22, R25), in the one canonical form of `Memory.wf`; the
operations are in Ops.lean, and only whole aligned words are ever read or written (R32). -/
abbrev Memory := List Host.Cell

/-- The whole state of the machine (R10). -/
structure State where
  /-- `x[0]` to `x[31]` (R11); register 0 is a register like any other. -/
  x : Vector Word 32
  /-- The program counter, a byte address (R16). -/
  pc : Word
  /-- The one memory, for code and data (R22). -/
  mem : Memory
deriving DecidableEq, Repr

/-- A launch state, as the driver builds it: all three elements are arguments (R23, R130, R131). -/
def State.launch (x : Vector Word 32) (pc : Word) (mem : Memory) : State := ⟨x, pc, mem⟩

/-- The launch state the model names where the spec leaves the values open (R23, D6): registers 0 (DESIGN CHOICE,
log entry 7), pc 0 (DESIGN CHOICE, log entry 8), no memory byte listed (log entry 6). -/
def State.reset : State := .launch (Vector.replicate 32 0#32) config.pcReset []

end Sys2Proof.Machine
end

