-- ==== Sys2Proof/Machine/Ops.lean ====
section
/-! DEFINITION. The named operations over memory, registers and pc, and the halt. -/

namespace Sys2Proof.Machine

/-! ## Memory bytes -/

/-- What a byte of memory that no cell lists reads as (DESIGN CHOICE, log entry 6: the launch image is an argument,
R23). Every image of the whole memory is some canonical list of cells. -/
def unlistedByte : Byte := 0#8

/-- The canonical form: addresses strictly rising, inside the memory, and no cell equal to what an unlisted address
reads as; so equal memories are equal lists. -/
abbrev Memory.wf (m : Memory) : Prop :=
  m.Pairwise (fun c d => c.1 < d.1) ∧ ∀ c ∈ m, c.1 < config.memBytes ∧ c.2 ≠ unlistedByte

/-- The byte at a byte address. -/
def Memory.readByte (m : Memory) (a : Nat) : Byte :=
  match m with
  | [] => unlistedByte
  | (k, b) :: rest => if k = a then b else Memory.readByte rest a

/-- A cell in front of the cells above it, or nothing if it holds what an unlisted address reads as. -/
def Memory.cons (a : Nat) (b : Byte) (m : Memory) : Memory :=
  if b = unlistedByte then m else (a, b) :: m

/-- Replace the byte at a byte address, keeping the canonical form. -/
def Memory.writeByte (m : Memory) (a : Nat) (b : Byte) : Memory :=
  match m with
  | [] => Memory.cons a b []
  | (k, c) :: rest =>
    if a < k then Memory.cons a b ((k, c) :: rest)
    else if k = a then Memory.cons a b rest
    else (k, c) :: Memory.writeByte rest a b

/-! ## Memory words -/

/-- `Mem[i]`: the word at word index `i` (R22, R26). -/
def Memory.word (m : Memory) (i : Nat) : Word :=
  wordOfBytes (m.readByte (4 * i)) (m.readByte (4 * i + 1)) (m.readByte (4 * i + 2)) (m.readByte (4 * i + 3))

/-- `Mem[i] <- v`: all 32 bits of the word are replaced (R28). -/
def Memory.setWord (m : Memory) (i : Nat) (v : Word) : Memory :=
  (((m.writeByte (4 * i) (byteOfWord v 0)).writeByte (4 * i + 1) (byteOfWord v 1)).writeByte
    (4 * i + 2) (byteOfWord v 2)).writeByte (4 * i + 3) (byteOfWord v 3)

/-! ## Halts -/

/-- Taking a halt, the one exceptional event (R114): the cycle ends here with its cause; no register, no word of
memory and no pc is written, no register saves anything, no address is entered. There is no return from it (R115). -/
def raiseHalt {α : Type} (cause : HaltCause) : Except Fault α := .error (.halt cause)

/-- The outcome `Unspecified(reason)` (R8, R34): not a halt, no next state. -/
def raiseUnspecified {α : Type} (reason : UnspecifiedReason) : Except Fault α := .error (.unspecified reason)

/-! ## Data access -/

/-- The checks every data access makes: alignment first, then range (R27, R28, R34, R96). -/
def checkDataAddress (addr : Word) : Except Fault Unit :=
  if addr.toNat % 4 ≠ 0 then raiseHalt .dataMisaligned
  else if addr.toNat / 4 ≥ config.memWords then raiseUnspecified .dataAddressOutOfRange
  else .ok ()

/-- `MemRead(addr, 4)` (R27). A read changes nothing (R32). -/
def memRead (m : Memory) (addr : Word) : Except Fault Word :=
  match checkDataAddress addr with
  | .error f => .error f
  | .ok () => .ok (m.word (addr.toNat / 4))

/-- `MemWrite(addr, 4, v)` (R28). -/
def memWrite (m : Memory) (addr : Word) (v : Word) : Except Fault Memory :=
  match checkDataAddress addr with
  | .error f => .error f
  | .ok () => .ok (m.setWord (addr.toNat / 4) v)

/-! ## Registers and pc -/

/-- `x[r]` (R8, R13): every register, register 0 too, reads as what it holds. -/
def State.reg (s : State) (r : Reg) : Word := s.x[r]

/-- `x[r] <- v` (R8, R14): every register is written, register 0 too (R11). -/
def State.setReg (s : State) (r : Reg) (v : Word) : State := { s with x := s.x.set r v }

/-- `pc <- target` (R8). -/
def State.setPc (s : State) (target : Word) : State := { s with pc := target }

/-- The memory replaced. -/
def State.setMem (s : State) (m : Memory) : State := { s with mem := m }

/-- The address after this instruction, modulo 2^32 (R16, R73). -/
def State.nextPc (s : State) : Word := s.pc + 4

/-- `pc <- pc + 4` (R16). -/
def State.advance (s : State) : State := s.setPc s.nextPc

end Sys2Proof.Machine
end

