-- ==== Sys2Proof/Machine/Alu.lean ====
section
/-! DEFINITION. The ALU Operation Selector and the ALU (spec/40_datapath.md R65 to R69). -/

namespace Sys2Proof.Machine

/-- The eight ALU operations (R65). Code 5 is XOR, not OR (C2). -/
inductive AluOp where
  | add | sub | slt | sltu | and | xor | shl16 | not
deriving DecidableEq, Repr

/-- The number of an operation (R65). -/
def AluOp.code : AluOp → BitVec 3
  | .add => 0
  | .sub => 1
  | .slt => 2
  | .sltu => 3
  | .and => 4
  | .xor => 5
  | .shl16 => 6
  | .not => 7

/-- The operation of a number (R65). -/
def AluOp.ofCode (c : BitVec 3) : AluOp :=
  if c = 0 then .add
  else if c = 1 then .sub
  else if c = 2 then .slt
  else if c = 3 then .sltu
  else if c = 4 then .and
  else if c = 5 then .xor
  else if c = 6 then .shl16
  else .not

/-- The ALUOp the Control Decoder emits for opcode 0: resolve by funct (R65, R66, C7). -/
def rTypeMarker : BitVec 3 := 7

/-- ALU Operation Selector (R66). Its eight funct numbers are its own literals, not the parameters FN_*: so a change of
FN_* shows as a halt (R69). The entries 0x04 and 0x27 are dead in the cycle (R87, C3). -/
def select (aluOp : BitVec 3) (funct : BitVec 6) : Except Fault AluOp :=
  if aluOp ≠ rTypeMarker then .ok (AluOp.ofCode aluOp)
  else if funct = 0x04 then .ok .shl16
  else if funct = 0x20 then .ok .add
  else if funct = 0x21 then .ok .sub
  else if funct = 0x24 then .ok .and
  else if funct = 0x25 then .ok .xor
  else if funct = 0x27 then .ok .not
  else if funct = 0x2A then .ok .slt
  else if funct = 0x2B then .ok .sltu
  else raiseHalt .aluFunctFault

/-- The word a set-less-than operation yields (R67; PRESUMED values, log entry 9). -/
def sltWord (less : Bool) : Word := if less then config.sltTrue else config.sltFalse

/-- The ALU's result (R67). Addition and subtraction wrap and nothing traps (R77; DEDUCED, log entry 12); the signed
comparison is of the exact integers (R77; DEDUCED, log entry 10). -/
def aluResult (op : AluOp) (a b : Word) : Word :=
  match op with
  | .add => a + b
  | .sub => a - b
  | .slt => sltWord (decide (a.toInt < b.toInt))
  | .sltu => sltWord (decide (a.toNat < b.toNat))
  | .and => a &&& b
  | .xor => a ^^^ b
  | .shl16 => b <<< 16
  | .not => ~~~a

/-- The ALU (R67): result and Zero flag. It cannot halt. -/
def alu (a b : Word) (op : AluOp) : Word × Bool := (aluResult op a b, zeroFlag (aluResult op a b))

end Sys2Proof.Machine
end

