-- ==== Sys2Proof/Machine/Operands.lean ====
section
/-! DEFINITION. Every operand form of spec/30_encoding.md R45, with the Register Reader (spec/40_datapath.md R62) and
the Sign Extender (R63). -/

namespace Sys2Proof.Machine

/-- Register Reader (R62): both values, whatever the instruction; it reads the state and cannot halt. -/
def readRegisters (s : State) (rs rt : Reg) : Word × Word := (s.reg rs, s.reg rt)

/-- Sign Extender (R63): `sext_32(imm)`. -/
def signExtend (imm : BitVec 16) : Word :=
  if imm.getLsbD 15 then 0xFFFF#16 ++ imm else 0x0000#16 ++ imm

/-- The second ALU operand: the sign-extended immediate when ALUSrc is set, else `x[rt]` (R64). -/
def operandB (aluSrc : Bool) (e d2 : Word) : Word := if aluSrc then e else d2

/-- The branch offset `sext_32(imm) << 2` (R45): a signed word count times 4. -/
def branchOffset (imm : BitVec 16) : Word := signExtend imm <<< 2

/-- The branch target, relative to the instruction after the branch (R73, R101). -/
def branchTarget (pc : Word) (imm : BitVec 16) : Word := pc + 4 + branchOffset imm

/-- The jump address `(pc + 4)[31:28] ++ target ++ 0b00` (R45, R102). -/
def jumpAddress (pc : Word) (target : BitVec 26) : Word := (pc + 4).extractLsb' 28 4 ++ target ++ 0b00#2

/-- The effective address of lw and sw, modulo 2^32 (R96). The base register is not modified. -/
def effectiveAddress (s : State) (rs : Reg) (imm : BitVec 16) : Word := s.reg rs + signExtend imm

end Sys2Proof.Machine
end

