-- ==== Sys2Proof/Machine/ControlTransfer.lean ====
section
/-! DEFINITION. Control transfer (spec/44_control_transfer.md). There is no delay slot (R100). -/

namespace Sys2Proof.Machine

/-- beq (R101): the branch is taken iff the ALU's difference of the two registers sets the Zero flag. -/
def execBeq (rs rt : Reg) (imm : BitVec 16) (s : State) : Host.Outcome State Fault Refusal :=
  .next (s.setPc (if zeroFlag (aluResult .sub (s.reg rs) (s.reg rt)) then branchTarget s.pc imm else s.nextPc))

/-- j (R102): nothing is linked, nothing else is written. -/
def execJ (target : BitVec 26) (s : State) : Host.Outcome State Fault Refusal :=
  .next (s.setPc (jumpAddress s.pc target))

end Sys2Proof.Machine
end

