-- ==== Sys2Proof/Machine/Immediate.lean ====
section
/-! DEFINITION. The immediate arithmetic instructions (spec/42_itype_alu.md). -/

namespace Sys2Proof.Machine

/-- What the four have in common (R90): the immediate is sign-extended, `x[rt] <- R`, `pc <- pc + 4`. `a` is the first
ALU operand. -/
def execImmediate (op : AluOp) (rt : Reg) (a : Word) (imm : BitVec 16) (s : State) : Host.Outcome State Fault Refusal :=
  .next ((s.setReg rt (aluResult op a (signExtend imm))).advance)

/-- addi (R91): addition modulo 2^32, no overflow trap. -/
def execAddi (rt rs : Reg) (imm : BitVec 16) (s : State) : Host.Outcome State Fault Refusal :=
  execImmediate .add rt (s.reg rs) imm s

/-- slti (R92): signed comparison. -/
def execSlti (rt rs : Reg) (imm : BitVec 16) (s : State) : Host.Outcome State Fault Refusal :=
  execImmediate .slt rt (s.reg rs) imm s

/-- sltiu (R93): unsigned comparison with the sign-extended immediate. -/
def execSltiu (rt rs : Reg) (imm : BitVec 16) (s : State) : Host.Outcome State Fault Refusal :=
  execImmediate .sltu rt (s.reg rs) imm s

/-- lui (R94): the operation ignores its first operand, so the rs field has no part in it and 0 stands there. -/
def execLui (rt : Reg) (imm : BitVec 16) (s : State) : Host.Outcome State Fault Refusal :=
  execImmediate .shl16 rt 0 imm s

end Sys2Proof.Machine
end

