-- ==== Sys2Proof/Machine/LoadStore.lean ====
section
/-! DEFINITION. Load and store (spec/43_load_store.md). -/

namespace Sys2Proof.Machine

/-- lw (R97): the address uses the old `x[rs]`; on a halt or an unspecified address nothing is written. -/
def execLw (rt rs : Reg) (imm : BitVec 16) (s : State) : Host.Outcome State Fault Refusal :=
  match memRead s.mem (effectiveAddress s rs imm) with
  | .error f => .fault f
  | .ok v => .next ((s.setReg rt v).advance)

/-- sw (R98): rt is a source; no register is written. -/
def execSw (rt rs : Reg) (imm : BitVec 16) (s : State) : Host.Outcome State Fault Refusal :=
  match memWrite s.mem (effectiveAddress s rs imm) (s.reg rt) with
  | .error f => .fault f
  | .ok m => .next ((s.setMem m).advance)

end Sys2Proof.Machine
end

