-- ==== Sys2Proof/Machine/RType.lean ====
section
/-! DEFINITION. The register-type instructions (spec/41_rtype.md). -/

namespace Sys2Proof.Machine

/-- What the six have in common (R80): both sources are read first, then `x[rd] <- R`, `pc <- pc + 4`. -/
def execRType (op : AluOp) (rd rs rt : Reg) (s : State) : Host.Outcome State Fault Refusal :=
  .next ((s.setReg rd (aluResult op (s.reg rs) (s.reg rt))).advance)

/-- add (R81): addition modulo 2^32, no overflow trap. -/
def execAdd (rd rs rt : Reg) (s : State) : Host.Outcome State Fault Refusal := execRType .add rd rs rt s

/-- sub (R82): subtraction modulo 2^32, no overflow trap. -/
def execSub (rd rs rt : Reg) (s : State) : Host.Outcome State Fault Refusal := execRType .sub rd rs rt s

/-- and (R83): bitwise AND. -/
def execAnd (rd rs rt : Reg) (s : State) : Host.Outcome State Fault Refusal := execRType .and rd rs rt s

/-- or (R84): named "or", computes bitwise XOR (ALU code 5; C2). -/
def execOr (rd rs rt : Reg) (s : State) : Host.Outcome State Fault Refusal := execRType .xor rd rs rt s

/-- slt (R85): set on less than, signed. -/
def execSlt (rd rs rt : Reg) (s : State) : Host.Outcome State Fault Refusal := execRType .slt rd rs rt s

/-- sltu (R86): set on less than, unsigned. -/
def execSltu (rd rs rt : Reg) (s : State) : Host.Outcome State Fault Refusal := execRType .sltu rd rs rt s

end Sys2Proof.Machine
end

