-- ==== Sys2Proof/Machine/Fetch.lean ====
section
/-! DEFINITION. The Fetcher (spec/40_datapath.md R56, spec/20_memory.md R29), and a word put where it fetches. -/

namespace Sys2Proof.Machine

/-- The pc passes the Fetcher's two tests: aligned, and its word index within the memory (R17, R56). -/
abbrev Fetchable (pc : Word) : Prop := pc.toNat % 4 = 0 ∧ pc.toNat / 4 ≤ config.memWords - 1

/-- Fetcher (R56): alignment, then range, then the word, then the Legality Checker. The order of the first two is the
spec's choice (D8; log entry 11). Read-only. -/
def fetch (pc : Word) (m : Memory) : Except Fault Word :=
  if pc.toNat % 4 ≠ 0 then raiseHalt .pcMisaligned
  else if pc.toNat / 4 > config.memWords - 1 then raiseHalt .pcOutOfRange
  else if legal (m.word (pc.toNat / 4)) then .ok (m.word (pc.toNat / 4))
  else raiseHalt .illegalInstruction

/-- The address a loaded word is put at: the pc, or PC_RESET where no word can be fetched from the pc (log entry 18). -/
def loadAddress (s : State) : Word := if Fetchable s.pc then s.pc else config.pcReset

/-- The state with a word stored where the next cycle fetches, as the driver's loader would store it (R131). -/
def loadWord (s : State) (w : Word) : State :=
  (s.setPc (loadAddress s)).setMem (s.mem.setWord ((loadAddress s).toNat / 4) w)

end Sys2Proof.Machine
end

