-- ==== Sys2Proof/Machine/Step.lean ====
section
/-! DEFINITION. One cycle: fetch, decode, execute (spec/40_datapath.md R75). The literal chain of the ten components
is `cycle` in Datapath.lean. -/

namespace Sys2Proof.Machine

/-- One cycle, one instruction (R75, R137). -/
def step (s : State) : Host.Outcome State Fault Refusal :=
  match fetch s.pc s.mem with
  | .error f => .fault f
  | .ok w =>
    match decode w with
    | .ok i => exec i s
    | .error _ => .fault (.halt .illegalInstruction)

/-- `s` with the instruction word whose bits are the low `nbits` bits of `w` stored where `step` fetches next. -/
def State.withFetchWord (s : State) (nbits w : Nat) : State := loadWord s (BitVec.ofNat 32 (w % 2 ^ nbits))

end Sys2Proof.Machine
end

