-- ==== Sys2Proof/Machine/Control.lean ====
section
/-! DEFINITION. The Control Decoder (spec/40_datapath.md R58 to R61). -/

namespace Sys2Proof.Machine

/-- The Control Signal Vector (spec/10_state.md R19): eight booleans and the 3-bit ALUOp, produced fresh each cycle.
Every field defaults to false or 0 (R58). -/
structure ControlVector where
  regDst : Bool := false
  jump : Bool := false
  branch : Bool := false
  memRead : Bool := false
  memToReg : Bool := false
  memWrite : Bool := false
  aluSrc : Bool := false
  regWrite : Bool := false
  aluOp : BitVec 3 := 0
deriving DecidableEq, Repr

/-- Control Decoder (R58, R61): it looks at the opcode only; an opcode it has no row for halts (R59). -/
def controlDecoder (opcode : BitVec 6) : Except Fault ControlVector :=
  if opcode = config.opRType then .ok { regDst := true, regWrite := true, aluOp := rTypeMarker }
  else if opcode = config.opJ then .ok { jump := true }
  else if opcode = config.opBeq then .ok { branch := true, aluOp := AluOp.sub.code }
  else if opcode = config.opAddi then .ok { aluSrc := true, regWrite := true, aluOp := AluOp.add.code }
  else if opcode = config.opSlti then .ok { aluSrc := true, regWrite := true, aluOp := AluOp.slt.code }
  else if opcode = config.opSltiu then .ok { aluSrc := true, regWrite := true, aluOp := AluOp.sltu.code }
  else if opcode = config.opLui then .ok { aluSrc := true, regWrite := true, aluOp := AluOp.shl16.code }
  else if opcode = config.opLw then
    .ok { aluSrc := true, memRead := true, regWrite := true, memToReg := true, aluOp := AluOp.add.code }
  else if opcode = config.opSw then .ok { aluSrc := true, memWrite := true, aluOp := AluOp.add.code }
  else raiseHalt .controlDecodeFault

end Sys2Proof.Machine
end

