-- ==== Sys2Proof/Machine/Datapath.lean ====
section
/-! DEFINITION. The Memory Access Unit, the Register Writeback Unit, the PC Updater, and the cycle as the chain of the
ten components (spec/40_datapath.md R70 to R75), each signal a value of the cycle. -/

namespace Sys2Proof.Machine

/-- Memory Access Unit (R70). With both flags the write comes first, so the load value is the word just written (R71;
DESIGN CHOICE, log entry 13: no cycle has both). With MemRead clear the load value is a free value (log entry 14). -/
def memAccess (r d2 : Word) (write read : Bool) (m : Memory) : Except Fault (Memory × Word) :=
  match (if write then memWrite m r d2 else .ok m) with
  | .error f => .error f
  | .ok m' =>
    match (if read then memRead m' r else .ok (Config.unreadLoadValue r)) with
    | .error f => .error f
    | .ok l => .ok (m', l)

/-- Register Writeback Unit (R72): one register written, or none. It cannot halt. -/
def writeback (regWrite memToReg regDst : Bool) (rt rd : Reg) (l r : Word) (s : State) : State :=
  if regWrite then s.setReg (if regDst then rd else rt) (if memToReg then l else r) else s

/-- PC Updater (R73): `pc + 4`, then the branch, then the jump. It tests neither alignment nor range. -/
def pcUpdate (pc : Word) (branch jump zero : Bool) (e : Word) (target : BitVec 26) : Word :=
  let p := pc + 4
  let p := if branch && zero then p + (e <<< 2) else p
  if jump then p.extractLsb' 28 4 ++ target ++ 0b00#2 else p

/-- Register Reader, Sign Extender and ALU (R62 to R64, R67): the result and the Zero flag. All reads see the registers
at the start of the cycle (R75). -/
def aluStage (f : Fields) (c : ControlVector) (op : AluOp) (s : State) : Word × Bool :=
  alu (readRegisters s f.rs f.rt).1 (operandB c.aluSrc (signExtend f.imm) (readRegisters s f.rs f.rt).2) op

/-- Memory Access Unit, Register Writeback Unit and PC Updater, the three stages that change state, committed together
(R74, R75): the store data is the Register Reader's second value (R70). -/
def commitStages (f : Fields) (c : ControlVector) (op : AluOp) (s : State) : Except Fault State :=
  match memAccess (aluStage f c op s).1 (readRegisters s f.rs f.rt).2 c.memWrite c.memRead s.mem with
  | .error h => .error h
  | .ok (m, l) =>
    .ok (((writeback c.regWrite c.memToReg c.regDst f.rt f.rd l (aluStage f c op s).1 s).setMem m).setPc
      (pcUpdate s.pc c.branch c.jump (aluStage f c op s).2 (signExtend f.imm) f.target))

/-- The stages after the fetch, on a word (R75): the Control Decoder and the Selector may end the cycle first (R59, R69),
then the Memory Access Unit. -/
def runWord (w : Word) (s : State) : Except Fault State :=
  match controlDecoder (partition w).opcode with
  | .error h => .error h
  | .ok c =>
    match select c.aluOp (partition w).funct with
    | .error h => .error h
    | .ok op => commitStages (partition w) c op s

/-- The cycle of R75, component by component. -/
def cycle (s : State) : Host.Outcome State Fault Refusal :=
  match fetch s.pc s.mem with
  | .error h => .fault h
  | .ok w =>
    match runWord w s with
    | .error h => .fault h
    | .ok t => .next t

end Sys2Proof.Machine
end

