-- ==== Sys2Proof/Machine/Invoke.lean ====
section
/-! DEFINITION. The invocation contract and runs (spec/70_reset_and_hazards.md R133, R134), and the convention for the
normal end of a run (spec/60_exceptions.md R117). -/

namespace Sys2Proof.Machine

/-- What the driver gets back from one invocation (R133): the halt indicator and the state, or nothing it may use. -/
inductive Invocation where
  /-- the cycle completed; the state after it -/
  | completed (t : State)
  /-- the halt indicator with its cause (R111: nothing else is recorded); the state after the halted cycle -/
  | halted (cause : HaltCause) (t : State)
  /-- no defined outcome (R34) -/
  | unspecified (reason : UnspecifiedReason)
  /-- the model refuses; no cycle does -/
  | refused (why : Refusal)
deriving DecidableEq, Repr

/-- One invocation of the core (R133). A halted cycle gives back the state it was given, bit for bit (R114); a halt is
an output, and no latch remembers it (R116, D12; log entry 15). -/
def invoke (s : State) : Invocation :=
  match step s with
  | .next t => .completed t
  | .fault (.halt cause) => .halted cause s
  | .fault (.unspecified reason) => .unspecified reason
  | .refused why => .refused why

/-- The invocation that ends a run, or the last of at most `n`, with the number of cycles completed (R134: a run ends at
the first halt or unspecified outcome; R138: the driver may stop at any time). -/
def runFrom (s : State) : Nat → Nat × Invocation
  | 0 => (0, .completed s)
  | n + 1 =>
    match invoke s with
    | .completed t => let (k, e) := runFrom t n; (k + 1, e)
    | e => (0, e)

/-- The convention for a run's normal end (R117, D15; log entry 21): `Halt(IllegalInstruction)` with the pc at the
expected address and there the expected illegal word, normally 0x00000000. Every other end (another cause, that cause at
another pc, an unspecified outcome, a driver that stopped before) is a failure. The hardware knows nothing of this. -/
def Invocation.endsNormally (endPc : Word) (endWord : Word := 0x00000000#32) : Invocation → Bool
  | .halted .illegalInstruction t => t.pc = endPc ∧ t.mem.word (endPc.toNat / 4) = endWord
  | .halted _ _ => false
  | .completed _ => false
  | .unspecified _ => false
  | .refused _ => false

end Sys2Proof.Machine
end

