-- ==== Sys2Proof/Safety.lean ====
section
/-! DEFINITION. The terms claims about steps and runs use. -/

namespace Sys2Proof

/-- The register an instruction writes, or none (spec/10_state.md R14, spec/40_datapath.md R72). -/
def Instr.dest : Instr → Option Reg
  | .add rd _ _ => some rd
  | .sub rd _ _ => some rd
  | .and rd _ _ => some rd
  | .or rd _ _ => some rd
  | .slt rd _ _ => some rd
  | .sltu rd _ _ => some rd
  | .addi rt _ _ => some rt
  | .slti rt _ _ => some rt
  | .sltiu rt _ _ => some rt
  | .lui rt _ => some rt
  | .lw rt _ _ => some rt
  | .sw _ _ _ => none
  | .beq _ _ _ => none
  | .j _ => none

/-- The data address an instruction accesses in a state, or none (R96: lw and sw only). -/
def Instr.dataAddress (s : Machine.State) : Instr → Option Word
  | .lw _ rs imm => some (Machine.effectiveAddress s rs imm)
  | .sw _ rs imm => some (Machine.effectiveAddress s rs imm)
  | .add _ _ _ | .sub _ _ _ | .and _ _ _ | .or _ _ _ | .slt _ _ _ | .sltu _ _ _ => none
  | .addi _ _ _ | .slti _ _ _ | .sltiu _ _ _ | .lui _ _ | .beq _ _ _ | .j _ => none

end Sys2Proof

namespace Sys2Proof.Machine

/-- The pc is a multiple of 4 (spec/10_state.md R16: it "must remain word-aligned"). -/
abbrev State.PcAligned (s : State) : Prop := s.pc.toNat % 4 = 0

/-- The model's invariant: the memory in canonical form, the pc aligned. -/
structure State.Inv (s : State) : Prop where
  memWf : s.mem.wf
  pcAligned : s.PcAligned

/-- `t` comes after `s` in a run (R134). -/
inductive Reaches : State → State → Prop where
  | refl (s : State) : Reaches s s
  | tail {s t u : State} : Reaches s t → step t = .next u → Reaches s u

/-- The run from `s` ends normally at the expected address `endPc` (spec/60_exceptions.md R117, D15; log entry 21). -/
def State.EndsNormally (s : State) (endPc : Word) (endWord : Word := 0x00000000#32) : Prop :=
  ∃ n, (runFrom s n).2.endsNormally endPc endWord = true

/-- The cycle at `s` fetches and runs the instruction `i`: the pc is aligned and inside the memory, and the word there
decodes to `i` (R56, R75). -/
def Runs (s : State) (i : Instr) : Prop :=
  s.pc.toNat % 4 = 0 ∧ s.pc.toNat ≤ 0x3FFFC ∧ decode (s.mem.word (s.pc.toNat / 4)) = .ok i

/-- Every byte of memory reads the same in `t` as in `s`. -/
def SameMemory (s t : State) : Prop := ∀ a, t.mem.readByte a = s.mem.readByte a

/-- Every register but `d` reads the same in `t` as in `s`. -/
def SameRegsBut (d : Reg) (s t : State) : Prop := ∀ r, r ≠ d → t.reg r = s.reg r

/-- Every register reads the same in `t` as in `s`. -/
def SameRegs (s t : State) : Prop := ∀ r, t.reg r = s.reg r

/-- From `s` the cycle's effect is: register `d` holds `v`, the pc has advanced by 4, nothing else has changed. -/
structure WritesReg (s t : State) (d : Reg) (v : Word) : Prop where
  result : t.reg d = v
  regs : SameRegsBut d s t
  mem : SameMemory s t
  pc : t.pc = s.pc + 4

/-- A data address that lies in the memory and is aligned (spec/43_load_store.md R96, second row). -/
def Accessible (a : Word) : Prop := a.toNat % 4 = 0 ∧ a.toNat ≤ 0x3FFFC

end Sys2Proof.Machine
end

