-- ==== Sys2Proof/WellFormed.lean ====
section
/-! DEFINITION. Well-formed assembly forms (spec/30_encoding.md R51) and the instruction each one is. An `Instr` is
well-formed by its types; what needs checking is a form as it is written, with register numbers, immediates and
addresses that may be out of range. The forms are the spec's own (D11; log entry 20): the hardware never sees them. -/

namespace Sys2Proof

/-- The six mnemonics of the form `op $rd, $rs, $rt` (R51). -/
inductive RName where
  | add | sub | and | or | slt | sltu
deriving DecidableEq, Repr

/-- The three mnemonics of the form `op $rt, $rs, imm` (R51). -/
inductive IName where
  | addi | slti | sltiu
deriving DecidableEq, Repr

/-- The two mnemonics of the form `op $rt, imm($rs)` (R51). -/
inductive MName where
  | lw | sw
deriving DecidableEq, Repr

/-- An instruction as it is written, at a known address where that matters (R51). No pseudo-instruction exists (R52). -/
inductive Asm where
  /-- `add $rd, $rs, $rt` and the five like it -/
  | reg (op : RName) (rd rs rt : Nat)
  /-- `addi $rt, $rs, imm` and the two like it; `imm` a signed decimal or a 16-bit pattern -/
  | imm (op : IName) (rt rs : Nat) (v : Int)
  /-- `lui $rt, imm`; `imm` a 16-bit pattern -/
  | lui (rt : Nat) (pattern : Nat)
  /-- `lw $rt, imm($rs)` and `sw $rt, imm($rs)` -/
  | mem (op : MName) (rt : Nat) (v : Int) (rs : Nat)
  /-- `beq $rs, $rt, off`; `off` a signed word offset -/
  | beq (rs rt : Nat) (off : Int)
  /-- `beq $rs, $rt, label`: the branch to the byte address `label` -/
  | beqTo (rs rt : Nat) (label : Word)
  /-- `j addr`; `addr` a byte address -/
  | j (addr : Word)
deriving DecidableEq, Repr

/-- `$n` is register n, 0 to 31 (R51). -/
def regOk (n : Nat) : Bool := n < 32

/-- A signed decimal -32768 to 32767 or a 16-bit pattern (R51, the addi row). -/
def immOk (v : Int) : Bool := -32768 ≤ v && v ≤ 65535

/-- A 16-bit pattern (R51, the lui row). -/
def patternOk (n : Nat) : Bool := n < 65536

/-- A signed word offset (R51, the beq row; R45: the range -131072 to +131068 bytes). -/
def offsetOk (off : Int) : Bool := -32768 ≤ off && off ≤ 32767

/-- (label - (pc + 4)) read as a signed number of bytes (R51, the beq row). -/
def labelDistance (pc label : Word) : Int := (label - (pc + 4)).toInt

/-- A label is reached by a word offset: it lies a multiple of 4 away, within range (R51, the beq row). -/
def labelOk (pc label : Word) : Bool :=
  labelDistance pc label % 4 == 0 && offsetOk (labelDistance pc label / 4)

/-- `addr[31:28]` equals `(pc + 4)[31:28]` and `addr[1:0]` is 0 (R51, the j row). -/
def jumpOk (pc addr : Word) : Bool :=
  addr.extractLsb' 28 4 == (pc + 4).extractLsb' 28 4 && addr.extractLsb' 0 2 == 0

/-- The form, standing at byte address `pc`, is one R51 allows. -/
def Asm.wf (pc : Word) : Asm → Bool
  | .reg _ rd rs rt => regOk rd && regOk rs && regOk rt
  | .imm _ rt rs v => regOk rt && regOk rs && immOk v
  | .lui rt pattern => regOk rt && patternOk pattern
  | .mem _ rt v rs => regOk rt && immOk v && regOk rs
  | .beq rs rt off => regOk rs && regOk rt && offsetOk off
  | .beqTo rs rt label => regOk rs && regOk rt && labelOk pc label
  | .j addr => jumpOk pc addr

/-- Register n, for n below 32. -/
def regNamed (n : Nat) : Reg := Fin.ofNat 32 n

/-- The instruction of a mnemonic of the form `op $rd, $rs, $rt`. -/
def RName.instr : RName → Reg → Reg → Reg → Instr
  | .add => .add
  | .sub => .sub
  | .and => .and
  | .or => .or
  | .slt => .slt
  | .sltu => .sltu

/-- The instruction of a mnemonic of the form `op $rt, $rs, imm`. -/
def IName.instr : IName → Reg → Reg → BitVec 16 → Instr
  | .addi => .addi
  | .slti => .slti
  | .sltiu => .sltiu

/-- The instruction of a mnemonic of the form `op $rt, imm($rs)`. -/
def MName.instr : MName → Reg → Reg → BitVec 16 → Instr
  | .lw => .lw
  | .sw => .sw

/-- The instruction a form stands for, its low 16 immediate bits encoded (R51); none for an ill-formed one. -/
def Asm.instr (pc : Word) (a : Asm) : Option Instr :=
  if a.wf pc then
    some (match a with
      | .reg op rd rs rt => op.instr (regNamed rd) (regNamed rs) (regNamed rt)
      | .imm op rt rs v => op.instr (regNamed rt) (regNamed rs) (BitVec.ofInt 16 v)
      | .lui rt pattern => .lui (regNamed rt) (BitVec.ofNat 16 pattern)
      | .mem op rt v rs => op.instr (regNamed rt) (regNamed rs) (BitVec.ofInt 16 v)
      | .beq rs rt off => .beq (regNamed rs) (regNamed rt) (BitVec.ofInt 16 off)
      | .beqTo rs rt label => .beq (regNamed rs) (regNamed rt) (BitVec.ofInt 16 (labelDistance pc label / 4))
      | .j addr => .j (addr.extractLsb' 2 26))
  else none

end Sys2Proof
end

