-- ==== Sys2Proof/Certificates/Slice0/Obligations.lean ====
section
/-! DEFINITION. What is claimed of the model, rule by rule. Each docstring names the rule of spec/ it formalises. -/

open Sys2Proof Sys2Proof.Machine

/-! ## Encoding -/

/-- Words written out from the spec (spec/95_test_vectors.md S1, S9, 2.5 to 2.8) decode to the instructions they stand
for, one for each instruction, two with ignored bits set, and three illegal words. The opcode numbers but 0 are log
entry 1 (PRESUMED). -/
def Obligations.SpecWordsDecode : Prop :=
  decode 0x00221820#32 = .ok (.add 3 1 2) ∧ decode 0x00221FE0#32 = .ok (.add 3 1 2) ∧
  decode 0x00221821#32 = .ok (.sub 3 1 2) ∧ decode 0x00221824#32 = .ok (.and 3 1 2) ∧
  decode 0x00221825#32 = .ok (.or 3 1 2) ∧ decode 0x0022182A#32 = .ok (.slt 3 1 2) ∧
  decode 0x0022182B#32 = .ok (.sltu 3 1 2) ∧ decode 0x20220007#32 = .ok (.addi 2 1 7) ∧
  decode 0x2822FFFF#32 = .ok (.slti 2 1 0xFFFF) ∧ decode 0x2C22FFFF#32 = .ok (.sltiu 2 1 0xFFFF) ∧
  decode 0x3C021234#32 = .ok (.lui 2 0x1234) ∧ decode 0x3FE21234#32 = .ok (.lui 2 0x1234) ∧
  decode 0x8C22FFFC#32 = .ok (.lw 2 1 0xFFFC) ∧ decode 0xAC220002#32 = .ok (.sw 2 1 2) ∧
  decode 0x10220003#32 = .ok (.beq 1 2 3) ∧ decode 0x08000040#32 = .ok (.j 0x40) ∧
  decode 0x00000000#32 = .error (.illegalFunct 0x00) ∧ decode 0x00221827#32 = .error (.illegalFunct 0x27) ∧
  decode 0xFC000020#32 = .error (.illegalOpcode 0x3F)

/-- Decoding an encoded instruction gives it back, every operand at every value (R46, R50). -/
def Obligations.DecodeEncodeRoundTrip : Prop := ∀ i : Instr, decode (encode i) = .ok i

/-- Encoding a decoded word gives the word back but for the bits R49 says are ignored: no bit that is read is dropped. -/
def Obligations.EncodeDecodeKeepsReadBits : Prop :=
  ∀ (w : Word) (i : Instr), decode w = .ok i → encode i = clearIgnored w

/-- R48, R50, R55: the legal words are those one of the fourteen match-and-mask rows takes, the Legality Checker and the
decoder agree on them, and every other word is refused. The opcode numbers are log entry 1, the functs log entry 2. -/
def Obligations.LegalWordsAreTheFourteenRows : Prop :=
  ∀ w : Word,
    (legal w = true ↔
      (w &&& 0xFC00003F#32) ∈ [0x20#32, 0x21#32, 0x24#32, 0x25#32, 0x2A#32, 0x2B#32] ∨
      (w &&& 0xFC000000#32) ∈ [0x08000000#32, 0x10000000#32, 0x20000000#32, 0x28000000#32, 0x2C000000#32, 0x3C000000#32,
        0x8C000000#32, 0xAC000000#32]) ∧
    (legal w = true ↔ ∃ i, decode w = .ok i)

/-- R49: two words that differ only in ignored bits are equally legal, decode alike, and run alike through the ten
components from every state. -/
def Obligations.IgnoredBitsChangeNothing : Prop :=
  ∀ w v : Word, clearIgnored w = clearIgnored v →
    legal w = legal v ∧ decode w = decode v ∧ ∀ s : State, runWord w s = runWord v s

/-! ## Components -/

/-- R63: the Sign Extender keeps the low 16 bits, copies bit 15 into the upper 16, and keeps the signed value. -/
def Obligations.SignExtenderKeepsSignedValue : Prop :=
  ∀ v : BitVec 16, (∀ k < 16, (signExtend v).getLsbD k = v.getLsbD k) ∧
    (∀ k, 16 ≤ k → k < 32 → (signExtend v).getLsbD k = v.getLsbD 15) ∧ (signExtend v).toInt = v.toInt

/-- R67, R77: the result of each of the eight ALU codes of R65. The set-less-than values are log entry 9, the exact
signed comparison log entry 10, the wrap log entry 12. -/
def Obligations.AluComputesEachCode : Prop :=
  ∀ a b : Word,
    (aluResult (.ofCode 0) a b).toNat = (a.toNat + b.toNat) % 2 ^ 32 ∧
    ((aluResult (.ofCode 1) a b).toNat : Int) = ((a.toNat : Int) - b.toNat) % 2 ^ 32 ∧
    aluResult (.ofCode 2) a b = (if a.toInt < b.toInt then 1#32 else 0#32) ∧
    aluResult (.ofCode 3) a b = (if a.toNat < b.toNat then 1#32 else 0#32) ∧
    (∀ k, (aluResult (.ofCode 4) a b).getLsbD k = (a.getLsbD k && b.getLsbD k)) ∧
    (∀ k, (aluResult (.ofCode 5) a b).getLsbD k = (a.getLsbD k ^^ b.getLsbD k)) ∧
    (aluResult (.ofCode 6) a b).toNat = b.toNat * 65536 % 2 ^ 32 ∧
    (∀ k < 32, (aluResult (.ofCode 7) a b).getLsbD k = !a.getLsbD k)

/-- R68: the Zero flag is set iff the result is 0, for every code; for subtract iff the operands are equal, for the
comparisons iff they are false; and the PC Updater reads it only under Branch. -/
def Obligations.ZeroFlagMeansZeroResult : Prop :=
  ∀ a b : Word,
    (∀ op, ((alu a b op).2 = true ↔ (alu a b op).1 = 0)) ∧
    ((alu a b .sub).2 = true ↔ a = b) ∧
    ((alu a b .slt).2 = true ↔ ¬ a.toInt < b.toInt) ∧
    ((alu a b .sltu).2 = true ↔ ¬ a.toNat < b.toNat) ∧
    ∀ (pc e : Word) (jump z z' : Bool) (t : BitVec 26), pcUpdate pc false jump z e t = pcUpdate pc false jump z' e t

/-- R66: the Selector passes every ALUOp but the marker through, and under the marker follows its table of eight functs,
the two dead ones too, and halts on every other funct (R69). -/
def Obligations.SelectorFollowsItsTable : Prop :=
  (∀ (c : BitVec 3) (f : BitVec 6), c ≠ 7 → ∃ op, select c f = .ok op ∧ op.code = c) ∧
  ∀ f : BitVec 6,
    (∀ n, (f, n) ∈ [(0x04#6, 6#3), (0x20#6, 0#3), (0x21#6, 1#3), (0x24#6, 4#3), (0x25#6, 5#3), (0x27#6, 7#3),
        (0x2A#6, 2#3), (0x2B#6, 3#3)] → ∃ op, select 7 f = .ok op ∧ op.code = n) ∧
    (f ∉ [0x04#6, 0x20#6, 0x21#6, 0x24#6, 0x25#6, 0x27#6, 0x2A#6, 0x2B#6] → select 7 f = .error (.halt .aluFunctFault))

/-- R59, R61: the Control Decoder answers a vector for exactly the nine opcodes and halts on every other; and the
properties of its vectors that the rest of the datapath relies on. -/
def Obligations.ControlVectorsAreConsistent : Prop :=
  ∀ op : BitVec 6,
    ((op = config.opRType ∨ op ∈ config.wholeOpcodes) → ∃ c, controlDecoder op = .ok c) ∧
    (op ≠ config.opRType → op ∉ config.wholeOpcodes → controlDecoder op = .error (.halt .controlDecodeFault)) ∧
    ∀ c, controlDecoder op = .ok c →
      ¬ (c.memRead = true ∧ c.memWrite = true) ∧ ¬ (c.branch = true ∧ c.jump = true) ∧
      (c.memToReg = true → c.memRead = true) ∧ (c.regDst = true → c.regWrite = true) ∧
      (c.aluOp = 7 → op = config.opRType)

/-- R70, R71: what the Memory Access Unit does with neither flag, with one, and with both, by the address. Both flags
together are log entry 13 (DESIGN CHOICE); the outcome beyond the memory is log entry 4. -/
def Obligations.MemoryAccessUnitByFlags : Prop :=
  ∀ (r d2 : Word) (m : Memory), m.wf →
    (∃ l, memAccess r d2 false false m = .ok (m, l)) ∧
    (∀ write read : Bool, (write || read) = true →
      (r.toNat % 4 ≠ 0 → memAccess r d2 write read m = .error (.halt .dataMisaligned)) ∧
      (r.toNat % 4 = 0 → 0x40000 ≤ r.toNat →
        memAccess r d2 write read m = .error (.unspecified .dataAddressOutOfRange))) ∧
    (Accessible r →
      memAccess r d2 false true m = .ok (m, m.word (r.toNat / 4)) ∧
      ∃ m', (∃ l, memAccess r d2 true false m = .ok (m', l)) ∧ memAccess r d2 true true m = .ok (m', d2) ∧
        m'.word (r.toNat / 4) = d2 ∧ ∀ a, a < r.toNat ∨ r.toNat + 4 ≤ a → m'.readByte a = m.readByte a)

/-- R72: the Register Writeback Unit changes no register when RegWrite is clear; otherwise the one RegDst names gets the
value MemtoReg names; pc and memory stay. -/
def Obligations.WritebackChangesOneRegisterOrNone : Prop :=
  ∀ (regWrite memToReg regDst : Bool) (rt rd : Reg) (l r : Word) (s : State),
    let t := writeback regWrite memToReg regDst rt rd l r s
    t.pc = s.pc ∧ t.mem = s.mem ∧
    ∀ k : Reg, t.reg k =
      if regWrite = true ∧ k = (if regDst then rd else rt) then (if memToReg then l else r) else s.reg k

/-- R73: the PC Updater's value with no transfer, with a taken branch, and with a jump, which keeps the top four bits and
replaces the low 28. -/
def Obligations.PcUpdaterArithmetic : Prop :=
  ∀ (pc e : Word) (branch jump zero : Bool) (target : BitVec 26),
    ((branch && zero) = false → (pcUpdate pc branch false zero e target).toNat = (pc.toNat + 4) % 2 ^ 32) ∧
    ((branch && zero) = true →
      (pcUpdate pc branch false zero e target).toNat = (pc.toNat + 4 + e.toNat * 4) % 2 ^ 32) ∧
    (jump = true →
      (pcUpdate pc branch jump zero e target).toNat / 2 ^ 28 = (pcUpdate pc branch false zero e target).toNat / 2 ^ 28 ∧
      (pcUpdate pc branch jump zero e target).toNat % 2 ^ 28 = target.toNat * 4)

/-! ## The cycle -/

/-- R56, R113: which fetches halt, with which cause, and what the others return. The order of the two pc tests is the
spec's own choice (log entry 11). -/
def Obligations.FetcherHaltsOrReturnsTheWord : Prop :=
  ∀ (pc : Word) (m : Memory),
    (fetch pc m = .error (.halt .pcMisaligned) ↔ pc.toNat % 4 ≠ 0) ∧
    (fetch pc m = .error (.halt .pcOutOfRange) ↔ pc.toNat % 4 = 0 ∧ 65535 < pc.toNat / 4) ∧
    (fetch pc m = .error (.halt .illegalInstruction) ↔
      pc.toNat % 4 = 0 ∧ pc.toNat / 4 ≤ 65535 ∧ legal (m.word (pc.toNat / 4)) = false) ∧
    (∀ w, fetch pc m = .ok w ↔
      pc.toNat % 4 = 0 ∧ pc.toNat / 4 ≤ 65535 ∧ w = m.word (pc.toNat / 4) ∧ legal w = true)

/-- R75: when the pc is aligned and inside the memory and the word there decodes to an instruction, the cycle is that
instruction's meaning. Nothing is added around it: each meaning sets the pc. -/
def Obligations.StepRunsTheDecodedInstruction : Prop :=
  ∀ (s : State) (i : Instr), s.pc.toNat % 4 = 0 → s.pc.toNat ≤ 0x3FFFC →
    decode (s.mem.word (s.pc.toNat / 4)) = .ok i → step s = exec i s

/-- The machine that decodes an instruction and runs its meaning is, in every state, the chain of the
ten components of R75, signal by signal: same next state, same halt, same unspecified outcome (the preamble of
spec/40_datapath.md). That `step` runs closed forms and `cycle` is the chain is log entry 22 (DESIGN CHOICE). -/
def Obligations.StepIsTheDatapathCycle : Prop := ∀ s : State, step s = cycle s

/-- R59, R69 (C3, C6): on a legal word no state makes the Control Decoder or the Selector halt, though each halts on other
inputs. -/
def Obligations.DefensiveHaltsAreUnreachable : Prop :=
  (∀ (w : Word) (s : State), legal w = true →
    runWord w s ≠ .error (.halt .controlDecodeFault) ∧ runWord w s ≠ .error (.halt .aluFunctFault)) ∧
  (∃ w, ∀ s, runWord w s = .error (.halt .controlDecodeFault)) ∧
  (∃ w, ∀ s, runWord w s = .error (.halt .aluFunctFault))

/-- R110, R112, R113: in every state, each halt cause happens exactly under its condition, and no other halt happens.
The names and the order of the two pc tests are log entry 11. -/
def Obligations.HaltCausesHappenExactlyWhen : Prop :=
  ∀ s : State,
    (step s = .fault (.halt .pcMisaligned) ↔ s.pc.toNat % 4 ≠ 0) ∧
    (step s = .fault (.halt .pcOutOfRange) ↔ s.pc.toNat % 4 = 0 ∧ 0x40000 ≤ s.pc.toNat) ∧
    (step s = .fault (.halt .illegalInstruction) ↔
      s.pc.toNat % 4 = 0 ∧ s.pc.toNat < 0x40000 ∧ legal (s.mem.word (s.pc.toNat / 4)) = false) ∧
    step s ≠ .fault (.halt .controlDecodeFault) ∧
    step s ≠ .fault (.halt .aluFunctFault) ∧
    (step s = .fault (.halt .dataMisaligned) ↔
      ∃ i a, Runs s i ∧ i.dataAddress s = some a ∧ a.toNat % 4 ≠ 0)

/-- R34: a cycle is unspecified exactly when a lw or sw runs at an aligned address beyond the memory (log entry 4). -/
def Obligations.UnspecifiedOnlyBeyondTheMemory : Prop :=
  ∀ s : State, step s = .fault (.unspecified .dataAddressOutOfRange) ↔
    ∃ i a, Runs s i ∧ i.dataAddress s = some a ∧ a.toNat % 4 = 0 ∧ 0x40000 ≤ a.toNat

/-- R76: every state gives exactly one of the three outcomes; the model refuses none. -/
def Obligations.EveryCycleHasAnOutcome : Prop :=
  ∀ s : State, (∃ t, step s = .next t) ∨ (∃ c, step s = .fault (.halt c)) ∨ (∃ r, step s = .fault (.unspecified r))

/-- R112: a cycle completes exactly when an instruction is fetched whose data address, if it has one, is aligned and in
the memory. -/
def Obligations.CycleCompletesExactlyWhen : Prop :=
  ∀ s : State, (∃ t, step s = .next t) ↔ ∃ i, Runs s i ∧ ∀ a, i.dataAddress s = some a → Accessible a

/-- The invariant of the model (R17, R22): every cycle that completes keeps the memory in canonical form and the pc
aligned. -/
def Obligations.StepKeepsInvariant : Prop := ∀ s t : State, s.Inv → step s = .next t → t.Inv

/-- The invariant holds of the launch state the model names (log entries 6, 7 and 8, DESIGN CHOICE). -/
def Obligations.ResetHasInvariant : Prop := State.reset.Inv

/-- R17 (a), R104: from a launch with an aligned pc, whatever registers and memory hold, no later cycle halts with
PcMisaligned, and every pc is a multiple of 4. -/
def Obligations.AlignedLaunchNeverHaltsPcMisaligned : Prop :=
  ∀ s t : State, s.PcAligned → Reaches s t → t.PcAligned ∧ step t ≠ .fault (.halt .pcMisaligned)

/-- R17 (b): a cycle completes whatever pc it computes; a pc at or above 0x40000 halts the next cycle, and not this one. -/
def Obligations.OutOfRangePcHaltsTheNextCycle : Prop :=
  ∀ s t : State, step s = .next t → 0x40000 ≤ t.pc.toNat →
    step t = .fault (.halt .pcOutOfRange) ∧ invoke t = .halted .pcOutOfRange t

/-- R114, R116: a run that ends in a halt ends in a state the run reaches, unchanged by the halted cycle, and every cycle
issued again halts again with the same cause. -/
def Obligations.HaltedRunStaysWhereItHalted : Prop :=
  ∀ (s u : State) (n k : Nat) (c : HaltCause), runFrom s n = (k, .halted c u) →
    Reaches s u ∧ k < n ∧ step u = .fault (.halt c) ∧ ∀ n', runFrom u (n' + 1) = (0, .halted c u)

/-- A word placed where the next cycle fetches (log entry 18) is the next instruction to run, from every state with a
canonical memory. -/
def Obligations.LoadedWordRunsNext : Prop :=
  ∀ (s : State) (w : Nat) (i : Instr), s.mem.wf → decode (BitVec.ofNat 32 w) = .ok i →
    step (s.withFetchWord 32 w) = exec i (s.withFetchWord 32 w)

/-! ## Register-type instructions: encoding, result, frame and completion, from every state (R80) -/

/-- R81: add. -/
def Obligations.AddAddsModulo : Prop :=
  (∀ w : Word, w &&& 0xFC00003F#32 = 0x20#32 →
    decode w = .ok (.add (partition w).rd (partition w).rs (partition w).rt)) ∧
  ∀ (rd rs rt : Reg) (s : State), ∃ t, exec (.add rd rs rt) s = .next t ∧
    WritesReg s t rd (BitVec.ofNat 32 ((s.reg rs).toNat + (s.reg rt).toNat))

/-- R82: sub, at funct 0x21. -/
def Obligations.SubSubtractsModulo : Prop :=
  (∀ w : Word, w &&& 0xFC00003F#32 = 0x21#32 →
    decode w = .ok (.sub (partition w).rd (partition w).rs (partition w).rt)) ∧
  ∀ (rd rs rt : Reg) (s : State), ∃ t, exec (.sub rd rs rt) s = .next t ∧
    WritesReg s t rd (BitVec.ofInt 32 (((s.reg rs).toNat : Int) - (s.reg rt).toNat))

/-- R83: and, bit by bit. -/
def Obligations.AndIsBitwiseAnd : Prop :=
  (∀ w : Word, w &&& 0xFC00003F#32 = 0x24#32 →
    decode w = .ok (.and (partition w).rd (partition w).rs (partition w).rt)) ∧
  ∀ (rd rs rt : Reg) (s : State), ∃ t v, exec (.and rd rs rt) s = .next t ∧ WritesReg s t rd v ∧
    ∀ k, v.getLsbD k = ((s.reg rs).getLsbD k && (s.reg rt).getLsbD k)

/-- R84: or computes XOR, bit by bit. -/
def Obligations.OrComputesXor : Prop :=
  (∀ w : Word, w &&& 0xFC00003F#32 = 0x25#32 →
    decode w = .ok (.or (partition w).rd (partition w).rs (partition w).rt)) ∧
  ∀ (rd rs rt : Reg) (s : State), ∃ t v, exec (.or rd rs rt) s = .next t ∧ WritesReg s t rd v ∧
    ∀ k, v.getLsbD k = ((s.reg rs).getLsbD k ^^ (s.reg rt).getLsbD k)

/-- R85: slt compares signed. The values 1 and 0 are log entry 9 (PRESUMED). -/
def Obligations.SltComparesSigned : Prop :=
  (∀ w : Word, w &&& 0xFC00003F#32 = 0x2A#32 →
    decode w = .ok (.slt (partition w).rd (partition w).rs (partition w).rt)) ∧
  ∀ (rd rs rt : Reg) (s : State), ∃ t, exec (.slt rd rs rt) s = .next t ∧
    WritesReg s t rd (if (s.reg rs).toInt < (s.reg rt).toInt then 1 else 0)

/-- R86: sltu compares unsigned. The values 1 and 0 are log entry 9 (PRESUMED). -/
def Obligations.SltuComparesUnsigned : Prop :=
  (∀ w : Word, w &&& 0xFC00003F#32 = 0x2B#32 →
    decode w = .ok (.sltu (partition w).rd (partition w).rs (partition w).rt)) ∧
  ∀ (rd rs rt : Reg) (s : State), ∃ t, exec (.sltu rd rs rt) s = .next t ∧
    WritesReg s t rd (if (s.reg rs).toNat < (s.reg rt).toNat then 1 else 0)

/-! ## Immediate instructions (R90) -/

/-- R91: addi adds the signed immediate modulo 2^32. -/
def Obligations.AddiAddsTheSignedImmediate : Prop :=
  (∀ w : Word, (partition w).opcode = config.opAddi →
    decode w = .ok (.addi (partition w).rt (partition w).rs (partition w).imm)) ∧
  ∀ (rt rs : Reg) (imm : BitVec 16) (s : State), ∃ t, exec (.addi rt rs imm) s = .next t ∧
    WritesReg s t rt (BitVec.ofInt 32 ((s.reg rs).toNat + imm.toInt))

/-- R92: slti compares with the signed immediate. The values 1 and 0 are log entry 9 (PRESUMED). -/
def Obligations.SltiComparesSigned : Prop :=
  (∀ w : Word, (partition w).opcode = config.opSlti →
    decode w = .ok (.slti (partition w).rt (partition w).rs (partition w).imm)) ∧
  ∀ (rt rs : Reg) (imm : BitVec 16) (s : State), ∃ t, exec (.slti rt rs imm) s = .next t ∧
    WritesReg s t rt (if (s.reg rs).toInt < imm.toInt then 1 else 0)

/-- R93: sltiu compares unsigned with the sign-extended immediate: a pattern with bit 15 set stands for a number from
0xFFFF8000 up. The values 1 and 0 are log entry 9 (PRESUMED). -/
def Obligations.SltiuComparesWithExtendedImmediate : Prop :=
  (∀ w : Word, (partition w).opcode = config.opSltiu →
    decode w = .ok (.sltiu (partition w).rt (partition w).rs (partition w).imm)) ∧
  ∀ (rt rs : Reg) (imm : BitVec 16) (s : State), ∃ t, exec (.sltiu rt rs imm) s = .next t ∧
    WritesReg s t rt
      (if (s.reg rs).toNat < (if imm.toNat < 0x8000 then imm.toNat else 0xFFFF0000 + imm.toNat) then 1 else 0)

/-- R94: lui puts the immediate in the upper half and zeros below, whatever the rs field and the old value. -/
def Obligations.LuiLoadsTheUpperHalf : Prop :=
  (∀ w : Word, (partition w).opcode = config.opLui → decode w = .ok (.lui (partition w).rt (partition w).imm)) ∧
  ∀ (rt : Reg) (imm : BitVec 16) (s : State), ∃ t, exec (.lui rt imm) s = .next t ∧
    WritesReg s t rt (imm ++ 0#16)

/-! ## Load and store -/

/-- R97: lw, at an aligned address in the memory. -/
def Obligations.LwLoadsTheWord : Prop :=
  (∀ w : Word, (partition w).opcode = config.opLw →
    decode w = .ok (.lw (partition w).rt (partition w).rs (partition w).imm)) ∧
  ∀ (rt rs : Reg) (imm : BitVec 16) (s : State) (ea : Word),
    ea = BitVec.ofInt 32 ((s.reg rs).toNat + imm.toInt) → Accessible ea →
    ∃ t, exec (.lw rt rs imm) s = .next t ∧ WritesReg s t rt (s.mem.word (ea.toNat / 4))

/-- R98: sw, at an aligned address in the memory: the word there becomes `x[rt]`, every byte outside its four is
unchanged, and so is every register. -/
def Obligations.SwStoresTheWord : Prop :=
  (∀ w : Word, (partition w).opcode = config.opSw →
    decode w = .ok (.sw (partition w).rt (partition w).rs (partition w).imm)) ∧
  ∀ (rt rs : Reg) (imm : BitVec 16) (s : State) (ea : Word), s.mem.wf →
    ea = BitVec.ofInt 32 ((s.reg rs).toNat + imm.toInt) → Accessible ea →
    ∃ t, exec (.sw rt rs imm) s = .next t ∧ t.mem.word (ea.toNat / 4) = s.reg rt ∧
      (∀ a, a < ea.toNat ∨ ea.toNat + 4 ≤ a → t.mem.readByte a = s.mem.readByte a) ∧
      SameRegs s t ∧ t.pc = s.pc + 4

/-- R31, R96: a misaligned load or store halts, in the memory or beyond it. -/
def Obligations.MisalignedAccessHalts : Prop :=
  ∀ (rt rs : Reg) (imm : BitVec 16) (s : State), ((s.reg rs).toNat + imm.toInt) % 4 ≠ 0 →
    exec (.lw rt rs imm) s = .fault (.halt .dataMisaligned) ∧
    exec (.sw rt rs imm) s = .fault (.halt .dataMisaligned)

/-- R34 (D4; log entry 4): an aligned load or store beyond the memory has no outcome: no value, no wrap, no halt. -/
def Obligations.AlignedAccessBeyondMemoryIsUnspecified : Prop :=
  ∀ (rt rs : Reg) (imm : BitVec 16) (s : State) (ea : Word),
    ea = BitVec.ofInt 32 ((s.reg rs).toNat + imm.toInt) → ea.toNat % 4 = 0 → 0x40000 ≤ ea.toNat →
    exec (.lw rt rs imm) s = .fault (.unspecified .dataAddressOutOfRange) ∧
    exec (.sw rt rs imm) s = .fault (.unspecified .dataAddressOutOfRange)

/-- R99: a store and a later load at the same address, the word and the base register untouched between them, give back
the stored value. -/
def Obligations.StoreThenLoadReturnsTheValue : Prop :=
  ∀ (a b c : Reg) (imm : BitVec 16) (s t u : State), s.mem.wf → exec (.sw a b imm) s = .next t →
    u.reg b = s.reg b →
    u.mem.word ((effectiveAddress s b imm).toNat / 4) = t.mem.word ((effectiveAddress s b imm).toNat / 4) →
    ∃ v, exec (.lw c b imm) u = .next v ∧ v.reg c = s.reg a

/-- R36: a store to the word after the sw is what the next cycle fetches, with no fence; if it is legal it is what the
next cycle runs, and if it is not the next cycle halts. -/
def Obligations.StoreToTheNextWordIsFetched : Prop :=
  ∀ (rt rs : Reg) (imm : BitVec 16) (s t : State), s.mem.wf → Runs s (.sw rt rs imm) → step s = .next t →
    effectiveAddress s rs imm = s.pc + 4 →
    (∀ i, decode (s.reg rt) = .ok i → step t = exec i t) ∧
    (legal (s.reg rt) = false → step t = .fault (.halt .illegalInstruction))

/-! ## Control transfer -/

/-- R101: beq branches iff the two registers are equal, to pc + 4 + 4 * s(imm) modulo 2^32, and changes nothing else. -/
def Obligations.BeqBranchesOnEqual : Prop :=
  (∀ w : Word, (partition w).opcode = config.opBeq →
    decode w = .ok (.beq (partition w).rs (partition w).rt (partition w).imm)) ∧
  ∀ (rs rt : Reg) (imm : BitVec 16) (s : State), ∃ t, exec (.beq rs rt imm) s = .next t ∧
    SameRegs s t ∧ SameMemory s t ∧
    t.pc = if s.reg rs = s.reg rt then BitVec.ofInt 32 (s.pc.toNat + 4 + 4 * imm.toInt)
      else BitVec.ofNat 32 (s.pc.toNat + 4)

/-- R102: j keeps the top four bits of pc + 4, sets the other 28 to target * 4, and changes nothing else; from a pc inside
the memory the new pc is target * 4. -/
def Obligations.JumpReplacesTheLow28Bits : Prop :=
  (∀ w : Word, (partition w).opcode = config.opJ → decode w = .ok (.j (partition w).target)) ∧
  ∀ (target : BitVec 26) (s : State), ∃ t, exec (.j target) s = .next t ∧ SameRegs s t ∧ SameMemory s t ∧
    t.pc.toNat = (s.pc + 4).toNat / 2 ^ 28 * 2 ^ 28 + target.toNat * 4 ∧
    (s.pc.toNat ≤ 0x3FFFC → t.pc.toNat = target.toNat * 4)

/-- R139: a beq of a register with itself at offset -1, and a j to its own address, repeat for ever and change nothing:
every run of n cycles from there completes in the same state. -/
def Obligations.BranchOrJumpToItselfLoopsForever : Prop :=
  (∀ (s : State) (r : Reg), Runs s (.beq r r 0xFFFF) → ∀ n, Host.Core.run core n s = .next s) ∧
  (∀ (s : State) (target : BitVec 26), Runs s (.j target) → s.pc.toNat = target.toNat * 4 →
    ∀ n, Host.Core.run core n s = .next s)

/-- R51: a well-formed `j addr`, assembled for where it stands, goes to `addr`; a well-formed `beq $r, $r, label` goes to
`label`. The forms are the spec's own (log entry 20). -/
def Obligations.AssembledTransfersReachTheirAddress : Prop :=
  (∀ (s : State) (addr : Word), (Asm.j addr).wf s.pc = true →
    ∃ i t, (Asm.j addr).instr s.pc = some i ∧ exec i s = .next t ∧ t.pc = addr) ∧
  (∀ (s : State) (r : Nat) (label : Word), (Asm.beqTo r r label).wf s.pc = true →
    ∃ i t, (Asm.beqTo r r label).instr s.pc = some i ∧ exec i s = .next t ∧ t.pc = label)

/-! ## Over all instructions -/

/-- R11: 32 registers with no aliases among them, register 0 an ordinary one: a write is read back from the register
written and from no other, and what an instruction writes to register 0 a later instruction reads from it. -/
def Obligations.RegisterZeroIsOrdinary : Prop :=
  (∀ (s : State) (d r : Reg) (v : Word), (s.setReg d v).reg r = if r = d then v else s.reg r) ∧
  ∀ (rs rt rd rt' : Reg) (s : State), ∃ t u,
    exec (.add 0 rs rt) s = .next t ∧ t.reg 0 = s.reg rs + s.reg rt ∧
    exec (.add rd 0 rt') t = .next u ∧ u.reg rd = s.reg rs + s.reg rt + t.reg rt'

/-- R14: a cycle that completes changes no register but the instruction's destination, and none for sw, beq and j; a cycle
that halts changes no register. -/
def Obligations.OnlyTheDestinationRegisterChanges : Prop :=
  (∀ (i : Instr) (s t : State), exec i s = .next t → ∀ r, i.dest ≠ some r → t.reg r = s.reg r) ∧
  ∀ (s t : State) (c : HaltCause), invoke s = .halted c t → SameRegs s t

/-- R22: only sw changes memory, and only the four bytes of its word. -/
def Obligations.OnlySwWritesMemory : Prop :=
  ∀ (i : Instr) (s t : State), exec i s = .next t →
    ((∀ rt rs imm, i ≠ .sw rt rs imm) → SameMemory s t) ∧
    ∀ rt rs imm, i = .sw rt rs imm →
      ∀ a, a < (effectiveAddress s rs imm).toNat ∨ (effectiveAddress s rs imm).toNat + 4 ≤ a →
        t.mem.readByte a = s.mem.readByte a

/-- R16: the pc after a completed instruction. -/
def Obligations.NextPcOfEveryInstruction : Prop :=
  ∀ (i : Instr) (s t : State), exec i s = .next t →
    t.pc.toNat = match i with
      | .beq rs rt imm =>
        if s.reg rs = s.reg rt then (s.pc.toNat + 4 + (signExtend imm).toNat * 4) % 2 ^ 32
        else (s.pc.toNat + 4) % 2 ^ 32
      | .j target => (s.pc + 4).toNat / 2 ^ 28 * 2 ^ 28 + target.toNat * 4
      | _ => (s.pc.toNat + 4) % 2 ^ 32

/-- R13, R62, R76: a cycle reads no register but the two its rs and rt fields name: two states that agree on pc, memory
and those two registers stop alike, or both complete with the same pc and memory, every register being either written
with one value in both or left as it was in each. -/
def Obligations.CycleReadsOnlyTwoRegisters : Prop :=
  ∀ s s' : State, s.pc = s'.pc → s.mem = s'.mem →
    s.reg (partition (s.mem.word (s.pc.toNat / 4))).rs = s'.reg (partition (s.mem.word (s.pc.toNat / 4))).rs →
    s.reg (partition (s.mem.word (s.pc.toNat / 4))).rt = s'.reg (partition (s.mem.word (s.pc.toNat / 4))).rt →
    (∀ f, step s = .fault f → step s' = .fault f) ∧
    ∀ t, step s = .next t → ∃ t', step s' = .next t' ∧ t'.pc = t.pc ∧ t'.mem = t.mem ∧
      ∀ r, t.reg r = t'.reg r ∨ (t.reg r = s.reg r ∧ t'.reg r = s'.reg r)

/-- R52: `lui` then `addi` build any 32-bit constant in any register, the upper half raised by 1 modulo 2^16 when bit 15
of the lower half is set. -/
def Obligations.LuiThenAddiBuildsAnyConstant : Prop :=
  ∀ (r : Reg) (hi lo : BitVec 16) (s : State), ∃ t u,
    exec (.lui r (if lo.getLsbD 15 then hi + 1 else hi)) s = .next t ∧
    exec (.addi r r lo) t = .next u ∧ u.reg r = hi ++ lo

/-! ## The end of a run -/

/-- R117, R134: a run of at most n cycles stands at a state it reaches, in one of three ways: a halt of a cause that can
happen, an unspecified outcome, or n cycles completed, where the driver stops. -/
def Obligations.RunEndsInOneOfThreeWays : Prop :=
  ∀ (s : State) (n : Nat), ∃ k u, Reaches s u ∧
    ((∃ c, k < n ∧ step u = .fault (.halt c) ∧ c ≠ .controlDecodeFault ∧ c ≠ .aluFunctFault ∧
        runFrom s n = (k, .halted c u)) ∨
      (k < n ∧ step u = .fault (.unspecified .dataAddressOutOfRange) ∧
        runFrom s n = (k, .unspecified .dataAddressOutOfRange)) ∨
      (k = n ∧ runFrom s n = (k, .completed u)))

/-- R117, D15 (the spec's own convention, log entry 21): a run ends normally at an expected address iff it reaches a state
there, at the expected word, whose cycle halts with IllegalInstruction; at most one address and word are so; and a run
that halts with another cause, or with that cause at another pc, does not end normally. -/
def Obligations.NormalEndIsTheIllegalWordAtItsAddress : Prop :=
  (∀ (s : State) (a w : Word), s.EndsNormally a w ↔
    ∃ u, Reaches s u ∧ step u = .fault (.halt .illegalInstruction) ∧ u.pc = a ∧ u.mem.word (a.toNat / 4) = w) ∧
  (∀ (s : State) (a w a' w' : Word), s.EndsNormally a w → s.EndsNormally a' w' → a = a' ∧ w = w') ∧
  ∀ (s u : State) (n k : Nat) (c : HaltCause) (a w : Word), runFrom s n = (k, .halted c u) →
    c ≠ .illegalInstruction ∨ u.pc ≠ a → ¬ s.EndsNormally a w
end

