-- ==== Sys2Proof/Laws/Config.lean ====
section
/-! SUPPORT. The value of each parameter, as simp lemmas, and that the values are ones the rules can work with. -/

namespace Sys2Proof

@[simp] theorem config_memWords : config.memWords = 65536 := rfl
@[simp] theorem config_memBytes : config.memBytes = 262144 := rfl
@[simp] theorem config_opRType : config.opRType = 0x00#6 := rfl
@[simp] theorem config_opJ : config.opJ = 0x02#6 := rfl
@[simp] theorem config_opBeq : config.opBeq = 0x04#6 := rfl
@[simp] theorem config_opAddi : config.opAddi = 0x08#6 := rfl
@[simp] theorem config_opSlti : config.opSlti = 0x0A#6 := rfl
@[simp] theorem config_opSltiu : config.opSltiu = 0x0B#6 := rfl
@[simp] theorem config_opLui : config.opLui = 0x0F#6 := rfl
@[simp] theorem config_opLw : config.opLw = 0x23#6 := rfl
@[simp] theorem config_opSw : config.opSw = 0x2B#6 := rfl
@[simp] theorem config_fnAdd : config.fnAdd = 0x20#6 := rfl
@[simp] theorem config_fnSub : config.fnSub = 0x21#6 := rfl
@[simp] theorem config_fnAnd : config.fnAnd = 0x24#6 := rfl
@[simp] theorem config_fnOr : config.fnOr = 0x25#6 := rfl
@[simp] theorem config_fnSlt : config.fnSlt = 0x2A#6 := rfl
@[simp] theorem config_fnSltu : config.fnSltu = 0x2B#6 := rfl
@[simp] theorem config_sltTrue : config.sltTrue = 1#32 := rfl
@[simp] theorem config_sltFalse : config.sltFalse = 0#32 := rfl
@[simp] theorem config_pcReset : config.pcReset = 0#32 := rfl

/-- The parameters meet what R6 needs of them. -/
theorem config_valid : config.Valid := by decide

end Sys2Proof
end

