-- ==== Sys2Proof/Laws/Decode.lean ====
section
/-! SUPPORT. Small lemmas of the fields, the byte order, and the words of each format. -/

namespace Sys2Proof

@[simp] theorem regOfBits_bitsOfReg (r : Reg) : regOfBits (bitsOfReg r) = r := by
  apply Fin.ext
  simp [regOfBits, bitsOfReg]

@[simp] theorem bitsOfReg_regOfBits (b : BitVec 5) : bitsOfReg (regOfBits b) = b := by
  apply BitVec.eq_of_toNat_eq
  simp [regOfBits, bitsOfReg]

@[simp] theorem wordOfBytes_byteOfWord (w : Word) :
    wordOfBytes (byteOfWord w 0) (byteOfWord w 1) (byteOfWord w 2) (byteOfWord w 3) = w := by
  apply BitVec.eq_of_getLsbD_eq
  intro i hi
  simp only [wordOfBytes, byteOfWord, BitVec.getLsbD_append, BitVec.getLsbD_extractLsb']
  interval_cases i <;> simp

/-! ## Fields of each format's words -/

theorem rWord_fields (fn : BitVec 6) (rd rs rt : Reg) :
    (partition (rWord fn rd rs rt)).opcode = config.opRType ∧ (partition (rWord fn rd rs rt)).funct = fn ∧
      (partition (rWord fn rd rs rt)).rd = rd ∧ (partition (rWord fn rd rs rt)).rs = rs ∧
      (partition (rWord fn rd rs rt)).rt = rt := by
  have key : ∀ (o : BitVec 6) (a b c z : BitVec 5) (f : BitVec 6),
      let w : BitVec 32 := o ++ a ++ b ++ c ++ z ++ f
      w.extractLsb' 26 6 = o ∧ w.extractLsb' 0 6 = f ∧ w.extractLsb' 11 5 = c ∧ w.extractLsb' 21 5 = a ∧
        w.extractLsb' 16 5 = b := by
    intro o a b c z f
    refine ⟨?_, ?_, ?_, ?_, ?_⟩ <;> apply BitVec.eq_of_getLsbD_eq <;> intro i hi <;>
      simp only [BitVec.getLsbD_append, BitVec.getLsbD_extractLsb', hi, decide_true, Bool.true_and] <;>
      interval_cases i <;> simp
  obtain ⟨h1, h2, h3, h4, h5⟩ :=
    key config.opRType (bitsOfReg rs) (bitsOfReg rt) (bitsOfReg rd) 0#5 fn
  exact ⟨h1, h2, (congrArg regOfBits h3).trans (regOfBits_bitsOfReg rd),
    (congrArg regOfBits h4).trans (regOfBits_bitsOfReg rs), (congrArg regOfBits h5).trans (regOfBits_bitsOfReg rt)⟩

theorem iWord_fields (op : BitVec 6) (rs rt : Reg) (imm : BitVec 16) :
    (partition (iWord op rs rt imm)).opcode = op ∧ (partition (iWord op rs rt imm)).imm = imm ∧
      (partition (iWord op rs rt imm)).rs = rs ∧ (partition (iWord op rs rt imm)).rt = rt := by
  have key : ∀ (o : BitVec 6) (a b : BitVec 5) (v : BitVec 16),
      let w : BitVec 32 := o ++ a ++ b ++ v
      w.extractLsb' 26 6 = o ∧ w.extractLsb' 0 16 = v ∧ w.extractLsb' 21 5 = a ∧ w.extractLsb' 16 5 = b := by
    intro o a b v
    refine ⟨?_, ?_, ?_, ?_⟩ <;> apply BitVec.eq_of_getLsbD_eq <;> intro i hi <;>
      simp only [BitVec.getLsbD_append, BitVec.getLsbD_extractLsb', hi, decide_true, Bool.true_and] <;>
      interval_cases i <;> simp
  obtain ⟨h1, h2, h3, h4⟩ := key op (bitsOfReg rs) (bitsOfReg rt) imm
  exact ⟨h1, h2, (congrArg regOfBits h3).trans (regOfBits_bitsOfReg rs),
    (congrArg regOfBits h4).trans (regOfBits_bitsOfReg rt)⟩

theorem jWord_fields (op : BitVec 6) (target : BitVec 26) :
    (partition (jWord op target)).opcode = op ∧ (partition (jWord op target)).target = target := by
  refine ⟨?_, ?_⟩ <;> apply BitVec.eq_of_getLsbD_eq <;> intro i hi <;>
    simp only [partition, jWord, BitVec.getLsbD_append, BitVec.getLsbD_extractLsb', hi, decide_true, Bool.true_and] <;>
    interval_cases i <;> simp

/-! ## What the decoder reads from each format's words -/

theorem decode_rWord (fn : BitVec 6) (rd rs rt : Reg) :
    decode (rWord fn rd rs rt) =
      if fn = config.fnAdd then .ok (.add rd rs rt) else if fn = config.fnSub then .ok (.sub rd rs rt)
      else if fn = config.fnAnd then .ok (.and rd rs rt) else if fn = config.fnOr then .ok (.or rd rs rt)
      else if fn = config.fnSlt then .ok (.slt rd rs rt) else if fn = config.fnSltu then .ok (.sltu rd rs rt)
      else .error (.illegalFunct fn) := by
  obtain ⟨h1, h2, h3, h4, h5⟩ := rWord_fields fn rd rs rt
  simp only [decode, decodeRType, h1, h2, h3, h4, h5, if_true]

theorem decode_iWord {op : BitVec 6} (rs rt : Reg) (imm : BitVec 16) (h : op ≠ config.opRType) (hj : op ≠ config.opJ) :
    decode (iWord op rs rt imm) =
      if op = config.opBeq then .ok (.beq rs rt imm) else if op = config.opAddi then .ok (.addi rt rs imm)
      else if op = config.opSlti then .ok (.slti rt rs imm) else if op = config.opSltiu then .ok (.sltiu rt rs imm)
      else if op = config.opLui then .ok (.lui rt imm) else if op = config.opLw then .ok (.lw rt rs imm)
      else if op = config.opSw then .ok (.sw rt rs imm) else .error (.illegalOpcode op) := by
  obtain ⟨h1, h2, h3, h4⟩ := iWord_fields op rs rt imm
  simp only [decode, h1, h2, h3, h4, h, hj, if_false]

/-! ## Legality by fields -/

/-- The Legality Checker, as the opcode and funct it looks at. -/
theorem legal_iff (w : Word) :
    legal w = true ↔
      ((partition w).opcode = config.opRType ∧ (partition w).funct ∈ config.functs) ∨
        ((partition w).opcode ≠ config.opRType ∧ (partition w).opcode ∈ config.wholeOpcodes) := by
  unfold legal
  by_cases h : (partition w).opcode = config.opRType
  · simp only [h, if_true, List.contains_iff_mem, true_and, ne_eq, not_true_eq_false, false_and, or_false]
  · simp only [h, if_false, List.contains_iff_mem, false_and, ne_eq, not_false_eq_true, true_and, false_or]

end Sys2Proof
end

