-- ==== Sys2Proof/Laws/Memory.lean ====
section
/-! SUPPORT. The laws of memory: a read after a write, the canonical form, and equal reads mean equal memories. -/

namespace Sys2Proof.Machine

/-! ## The canonical form, one cell at a time -/

theorem Memory.wf_nil : Memory.wf [] := ⟨List.Pairwise.nil, fun _ hc => absurd hc List.not_mem_nil⟩

theorem Memory.wf_tail {c : Host.Cell} {m : Memory} (h : Memory.wf (c :: m)) : Memory.wf m :=
  ⟨h.1.of_cons, fun d hd => h.2 d (List.mem_cons_of_mem c hd)⟩

/-- Every address listed after the first cell lies above it. -/
theorem Memory.wf_head_lt {k : Nat} {b : Byte} {m : Memory} (h : Memory.wf ((k, b) :: m)) :
    ∀ c ∈ m, k < c.1 := fun _ hc => List.rel_of_pairwise_cons h.1 hc

theorem Memory.wf_cons {k : Nat} {b : Byte} {m : Memory} (hm : Memory.wf m) (hk : k < config.memBytes)
    (hlt : ∀ c ∈ m, k < c.1) : Memory.wf (Memory.cons k b m) := by
  unfold Memory.cons
  split
  · exact hm
  · refine ⟨List.pairwise_cons.2 ⟨hlt, hm.1⟩, ?_⟩
    simp only [List.mem_cons, forall_eq_or_imp]
    exact ⟨⟨hk, ‹_›⟩, hm.2⟩

/-! ## Reads and writes of a byte -/

/-- An address below every listed one reads as an unlisted byte. -/
theorem Memory.readByte_unlisted {m : Memory} {a : Nat} (h : ∀ c ∈ m, a < c.1) : m.readByte a = unlistedByte := by
  induction m with
  | nil => rfl
  | cons c m ih =>
    have hc := h c (List.mem_cons_self ..)
    simp only [Memory.readByte, show c.1 ≠ a by omega, if_false]
    exact ih fun d hd => h d (List.mem_cons_of_mem c hd)

theorem Memory.readByte_cons_self {m : Memory} {a : Nat} {b : Byte} (h : ∀ c ∈ m, a < c.1) :
    (Memory.cons a b m).readByte a = b := by
  unfold Memory.cons
  split
  · rw [Memory.readByte_unlisted h, ‹b = _›]
  · simp [Memory.readByte]

theorem Memory.readByte_cons_ne {m : Memory} {a a' : Nat} (b : Byte) (h : a' ≠ a) :
    (Memory.cons a b m).readByte a' = m.readByte a' := by
  unfold Memory.cons
  split
  · rfl
  · simp [Memory.readByte, Ne.symm h]

/-- A read after a write to the same address gives the byte written. -/
theorem Memory.readByte_writeByte_self {m : Memory} (h : m.wf) (a : Nat) (b : Byte) :
    (m.writeByte a b).readByte a = b := by
  induction m with
  | nil => exact Memory.readByte_cons_self (by simp)
  | cons c m ih =>
    obtain ⟨k, v⟩ := c
    have hlt := Memory.wf_head_lt h
    simp only [Memory.writeByte]
    split
    · refine Memory.readByte_cons_self ?_
      simp only [List.mem_cons, forall_eq_or_imp]
      exact ⟨‹_›, fun c hc => lt_trans ‹_› (hlt c hc)⟩
    · split
      · subst_vars
        exact Memory.readByte_cons_self hlt
      · simp only [Memory.readByte, ‹k ≠ a›, if_false]
        exact ih (Memory.wf_tail h)

/-- A write leaves every other address as it was, whatever the list. -/
theorem Memory.readByte_writeByte_ne (m : Memory) {a a' : Nat} (b : Byte) (h : a' ≠ a) :
    (m.writeByte a b).readByte a' = m.readByte a' := by
  induction m with
  | nil => exact Memory.readByte_cons_ne b h
  | cons c m ih =>
    obtain ⟨k, v⟩ := c
    simp only [Memory.writeByte]
    split
    · exact Memory.readByte_cons_ne b h
    · split
      · subst_vars
        rw [Memory.readByte_cons_ne b h]
        simp [Memory.readByte, Ne.symm h]
      · simp only [Memory.readByte, ih]

theorem Memory.mem_cons_fst {m : Memory} {a : Nat} {b : Byte} {c : Host.Cell} (h : c ∈ Memory.cons a b m) :
    c.1 = a ∨ c ∈ m := by
  unfold Memory.cons at h
  split at h
  · exact .inr h
  · rcases List.mem_cons.1 h with rfl | h
    · exact .inl rfl
    · exact .inr h

theorem Memory.mem_writeByte {m : Memory} {a : Nat} {b : Byte} {c : Host.Cell} (h : c ∈ m.writeByte a b) :
    c.1 = a ∨ c ∈ m := by
  induction m with
  | nil => exact Memory.mem_cons_fst h
  | cons d m ih =>
    obtain ⟨k, v⟩ := d
    simp only [Memory.writeByte] at h
    split at h
    · exact Memory.mem_cons_fst h
    · split at h
      · exact (Memory.mem_cons_fst h).imp_right (List.mem_cons_of_mem _)
      · rcases List.mem_cons.1 h with rfl | h
        · exact .inr (List.mem_cons_self ..)
        · exact (ih h).imp_right (List.mem_cons_of_mem _)

/-- A write inside the memory keeps the canonical form. -/
theorem Memory.writeByte_wf {m : Memory} (h : m.wf) {a : Nat} (ha : a < config.memBytes) (b : Byte) :
    (m.writeByte a b).wf := by
  induction m with
  | nil => exact Memory.wf_cons Memory.wf_nil ha (by simp)
  | cons c m ih =>
    obtain ⟨k, v⟩ := c
    have hlt := Memory.wf_head_lt h
    simp only [Memory.writeByte]
    split
    · refine Memory.wf_cons h ha ?_
      simp only [List.mem_cons, forall_eq_or_imp]
      exact ⟨‹_›, fun c hc => lt_trans ‹_› (hlt c hc)⟩
    · split
      · subst_vars
        exact Memory.wf_cons (Memory.wf_tail h) ha hlt
      · have ih := ih (Memory.wf_tail h)
        refine ⟨List.pairwise_cons.2 ⟨fun c hc => ?_, ih.1⟩, ?_⟩
        · rcases Memory.mem_writeByte hc with hc | hc
          · show k < c.1
            omega
          · exact hlt c hc
        · simp only [List.mem_cons, forall_eq_or_imp]
          exact ⟨h.2 _ (List.mem_cons_self ..), ih.2⟩

/-! ## Equal reads mean equal memories -/

theorem Memory.eq_of_readByte {m n : Memory} (hm : m.wf) (hn : n.wf) (h : ∀ a, m.readByte a = n.readByte a) :
    m = n := by
  induction m generalizing n with
  | nil =>
    cases n with
    | nil => rfl
    | cons d n =>
      have := h d.1
      simp only [Memory.readByte, if_true] at this
      exact absurd this.symm (hn.2 d (List.mem_cons_self ..)).2
  | cons c m ih =>
    obtain ⟨k, b⟩ := c
    have hb := (hm.2 _ (List.mem_cons_self ..)).2
    cases n with
    | nil =>
      have := h k
      simp only [Memory.readByte, if_true] at this
      exact absurd this hb
    | cons d n =>
      obtain ⟨k', b'⟩ := d
      have hb' := (hn.2 _ (List.mem_cons_self ..)).2
      have hlt := Memory.wf_head_lt hm
      have hlt' := Memory.wf_head_lt hn
      have hk : k = k' := by
        rcases Nat.lt_trichotomy k k' with hk | hk | hk
        · have := h k
          rw [Memory.readByte_unlisted (m := (k', b') :: n) (by
            simp only [List.mem_cons, forall_eq_or_imp]
            exact ⟨hk, fun c hc => lt_trans hk (hlt' c hc)⟩)] at this
          simp only [Memory.readByte, if_true] at this
          exact absurd this hb
        · exact hk
        · have := h k'
          rw [Memory.readByte_unlisted (m := (k, b) :: m) (by
            simp only [List.mem_cons, forall_eq_or_imp]
            exact ⟨hk, fun c hc => lt_trans hk (hlt c hc)⟩)] at this
          simp only [Memory.readByte, if_true] at this
          exact absurd this.symm hb'
      subst hk
      have hbb : b = b' := by
        have := h k
        simpa only [Memory.readByte, if_true] using this
      subst hbb
      refine congrArg _ (ih (Memory.wf_tail hm) (Memory.wf_tail hn) fun a => ?_)
      by_cases ha : k = a
      · subst ha
        rw [Memory.readByte_unlisted hlt, Memory.readByte_unlisted hlt']
      · have := h a
        simpa only [Memory.readByte, ha, if_false] using this

/-! ## Words -/

/-- A write of a word inside the memory keeps the canonical form. -/
theorem Memory.setWord_wf {m : Memory} (h : m.wf) {i : Nat} (hi : i < config.memWords) (v : Word) :
    (m.setWord i v).wf := by
  have hb : 4 * i + 3 < config.memBytes := by
    simp only [config_memWords, config_memBytes] at *
    omega
  unfold Memory.setWord
  exact Memory.writeByte_wf (Memory.writeByte_wf (Memory.writeByte_wf (Memory.writeByte_wf h (by omega) _)
    (by omega) _) (by omega) _) hb _

/-- A write of a word leaves every byte outside it as it was. -/
theorem Memory.readByte_setWord_outside (m : Memory) {i a : Nat} (v : Word) (h : a < 4 * i ∨ 4 * i + 4 ≤ a) :
    (m.setWord i v).readByte a = m.readByte a := by
  unfold Memory.setWord
  rw [Memory.readByte_writeByte_ne _ _ (by omega), Memory.readByte_writeByte_ne _ _ (by omega),
    Memory.readByte_writeByte_ne _ _ (by omega), Memory.readByte_writeByte_ne _ _ (by omega)]

/-- The four bytes of a word written. -/
theorem Memory.readByte_setWord_inside {m : Memory} (h : m.wf) {i : Nat} (hi : i < config.memWords) (v : Word)
    {k : Nat} (hk : k < 4) : (m.setWord i v).readByte (4 * i + k) = byteOfWord v k := by
  have hb : 4 * i + 3 < config.memBytes := by
    simp only [config_memWords, config_memBytes] at *
    omega
  have w1 := Memory.writeByte_wf h (a := 4 * i) (by omega) (byteOfWord v 0)
  have w2 := Memory.writeByte_wf w1 (a := 4 * i + 1) (by omega) (byteOfWord v 1)
  have w3 := Memory.writeByte_wf w2 (a := 4 * i + 2) (by omega) (byteOfWord v 2)
  unfold Memory.setWord
  interval_cases k
  · rw [Memory.readByte_writeByte_ne _ _ (by omega), Memory.readByte_writeByte_ne _ _ (by omega),
      Memory.readByte_writeByte_ne _ _ (by omega)]
    exact Memory.readByte_writeByte_self h _ _
  · rw [Memory.readByte_writeByte_ne _ _ (by omega), Memory.readByte_writeByte_ne _ _ (by omega)]
    exact Memory.readByte_writeByte_self w1 _ _
  · rw [Memory.readByte_writeByte_ne _ _ (by omega)]
    exact Memory.readByte_writeByte_self w2 _ _
  · exact Memory.readByte_writeByte_self w3 _ _

/-- A read of a word after a write of it gives the word written. -/
theorem Memory.word_setWord_self {m : Memory} (h : m.wf) {i : Nat} (hi : i < config.memWords) (v : Word) :
    (m.setWord i v).word i = v := by
  unfold Memory.word
  have hk := fun k hk => Memory.readByte_setWord_inside h hi v (k := k) hk
  rw [hk 1 (by omega), hk 2 (by omega), hk 3 (by omega), show 4 * i = 4 * i + 0 from rfl, hk 0 (by omega)]
  exact wordOfBytes_byteOfWord v

/-- A write of a word leaves every other word as it was. -/
theorem Memory.word_setWord_ne (m : Memory) {i k : Nat} (v : Word) (h : k ≠ i) :
    (m.setWord i v).word k = m.word k := by
  unfold Memory.word
  rw [Memory.readByte_setWord_outside m v (by omega), Memory.readByte_setWord_outside m v (by omega),
    Memory.readByte_setWord_outside m v (by omega), Memory.readByte_setWord_outside m v (by omega)]

/-! ## Data access -/

/-- The three outcomes of a data access's checks, by address (R96). -/
theorem checkDataAddress_cases (a : Word) :
    (a.toNat % 4 ≠ 0 ∧ checkDataAddress a = .error (.halt .dataMisaligned)) ∨
      (a.toNat % 4 = 0 ∧ 0x40000 ≤ a.toNat ∧
        checkDataAddress a = .error (.unspecified .dataAddressOutOfRange)) ∨
      (a.toNat % 4 = 0 ∧ a.toNat / 4 < config.memWords ∧ checkDataAddress a = .ok ()) := by
  unfold checkDataAddress raiseHalt raiseUnspecified
  by_cases h : a.toNat % 4 = 0
  · by_cases h' : a.toNat / 4 < config.memWords
    · right; right
      exact ⟨h, h', by simpa [h] using h'⟩
    · right; left
      simp only [config_memWords] at h' ⊢
      refine ⟨h, by omega, ?_⟩
      simp [h, Nat.not_lt.1 h']
  · left
    simp [h]

/-- A data access's checks stop for one of two reasons. -/
theorem checkDataAddress_error {a : Word} {f : Fault} (h : checkDataAddress a = .error f) :
    (f = .halt .dataMisaligned ∧ a.toNat % 4 ≠ 0) ∨
      (f = .unspecified .dataAddressOutOfRange ∧ a.toNat % 4 = 0 ∧ 0x40000 ≤ a.toNat) := by
  rcases checkDataAddress_cases a with ⟨h1, e⟩ | ⟨h1, h2, e⟩ | ⟨_, _, e⟩ <;> rw [e] at h <;> cases h
  · exact .inl ⟨rfl, h1⟩
  · exact .inr ⟨rfl, h1, h2⟩

theorem checkDataAddress_misaligned {a : Word} (h : a.toNat % 4 ≠ 0) :
    checkDataAddress a = .error (.halt .dataMisaligned) := by
  rcases checkDataAddress_cases a with ⟨_, e⟩ | ⟨h1, _, _⟩ | ⟨h1, _, _⟩
  · exact e
  · exact absurd h1 h
  · exact absurd h1 h

theorem checkDataAddress_beyond {a : Word} (h : a.toNat % 4 = 0) (h' : 0x40000 ≤ a.toNat) :
    checkDataAddress a = .error (.unspecified .dataAddressOutOfRange) := by
  rcases checkDataAddress_cases a with ⟨h1, _⟩ | ⟨_, _, e⟩ | ⟨_, h2, _⟩
  · exact absurd h h1
  · exact e
  · simp only [config_memWords] at h2
    omega

theorem checkDataAddress_inside {a : Word} (h : a.toNat % 4 = 0) (h' : a.toNat ≤ 0x3FFFC) :
    checkDataAddress a = .ok () := by
  rcases checkDataAddress_cases a with ⟨h1, _⟩ | ⟨_, h2, _⟩ | ⟨_, _, e⟩
  · exact absurd h h1
  · omega
  · exact e

/-- All that a read can answer. -/
theorem memRead_ok {m : Memory} {a v : Word} (h : memRead m a = .ok v) :
    a.toNat % 4 = 0 ∧ a.toNat / 4 < config.memWords ∧ v = m.word (a.toNat / 4) := by
  unfold memRead at h
  rcases checkDataAddress_cases a with ⟨_, e⟩ | ⟨_, _, e⟩ | ⟨h1, h2, e⟩ <;> rw [e] at h <;> cases h
  exact ⟨h1, h2, rfl⟩

/-- All that a write can answer. -/
theorem memWrite_ok {m m' : Memory} {a v : Word} (h : memWrite m a v = .ok m') :
    a.toNat % 4 = 0 ∧ a.toNat / 4 < config.memWords ∧ m' = m.setWord (a.toNat / 4) v := by
  unfold memWrite at h
  rcases checkDataAddress_cases a with ⟨_, e⟩ | ⟨_, _, e⟩ | ⟨h1, h2, e⟩ <;> rw [e] at h <;> cases h
  exact ⟨h1, h2, rfl⟩

/-- A write inside the memory keeps the canonical form. -/
theorem memWrite_wf {m m' : Memory} {a v : Word} (hm : m.wf) (h : memWrite m a v = .ok m') : m'.wf := by
  obtain ⟨_, hi, rfl⟩ := memWrite_ok h
  exact Memory.setWord_wf hm hi v

/-- Reads and writes stop at the same addresses, with the same reasons. -/
theorem memRead_error_iff_memWrite_error (m : Memory) (a v : Word) (f : Fault) :
    memRead m a = .error f ↔ memWrite m a v = .error f := by
  unfold memRead memWrite
  cases checkDataAddress a <;> simp

end Sys2Proof.Machine
end

