-- ==== Sys2Proof/Laws/Operands.lean ====
section
/-! SUPPORT. Small lemmas of the operand forms, the flag and the ALU codes. -/

namespace Sys2Proof.Machine

/-- The Sign Extender is the library's sign extension. -/
theorem signExtend_eq (v : BitVec 16) : signExtend v = v.signExtend 32 := by
  apply BitVec.eq_of_getLsbD_eq
  intro i hi
  unfold signExtend
  rw [BitVec.getLsbD_signExtend]
  have hm : v.msb = v.getLsbD 15 := rfl
  split <;> rename_i h <;> simp only [hi, decide_true, Bool.true_and, hm, h, BitVec.getLsbD_append] <;>
    (by_cases h16 : i < 16 <;> simp [h16] <;> interval_cases i <;> simp_all)

@[simp] theorem zeroFlag_iff (r : Word) : zeroFlag r = true ↔ r = 0#32 := by simp [zeroFlag]

/-- The Zero flag of a difference says whether the operands are equal (R68). -/
theorem zeroFlag_sub (a b : Word) : zeroFlag (a - b) = true ↔ a = b := by
  rw [zeroFlag_iff]
  exact BitVec.sub_eq_iff_eq_add.trans (by simp)

@[simp] theorem AluOp.ofCode_code (op : AluOp) : AluOp.ofCode op.code = op := by cases op <;> rfl

/-- Bit 15 of a pattern, as a number. -/
theorem getLsbD_fifteen (v : BitVec 16) : v.getLsbD 15 = decide (0x8000 ≤ v.toNat) := by
  have := BitVec.msb_eq_decide v
  simpa [BitVec.msb, BitVec.getMsbD] using this

/-- The sign-extended immediate as an unsigned number (R93: the two ranges it names). -/
theorem signExtend_toNat (v : BitVec 16) :
    (signExtend v).toNat = if v.toNat < 0x8000 then v.toNat else 0xFFFF0000 + v.toNat := by
  have hv := v.isLt
  unfold signExtend
  simp only [getLsbD_fifteen, decide_eq_true_eq]
  split
  · rw [if_neg (by omega), BitVec.toNat_append, ← Nat.shiftLeft_add_eq_or_of_lt hv]
    simp [Nat.shiftLeft_eq]
  · rw [if_pos (by omega), BitVec.toNat_append, ← Nat.shiftLeft_add_eq_or_of_lt hv]
    simp [Nat.shiftLeft_eq]

/-- Adding the sign-extended immediate adds the signed number, modulo 2^32 (R91, R96). -/
theorem add_signExtend (a : Word) (v : BitVec 16) : a + signExtend v = BitVec.ofInt 32 (a.toNat + v.toInt) := by
  apply BitVec.eq_of_toInt_eq
  rw [BitVec.toInt_add, signExtend_eq, BitVec.toInt_signExtend_of_le (by omega), BitVec.toInt_ofInt,
    BitVec.toInt_eq_toNat_bmod]
  simp

/-- lui's operand shifted is the immediate above sixteen zeros (R94). -/
theorem signExtend_shiftLeft (v : BitVec 16) : signExtend v <<< 16 = v ++ 0#16 := by
  apply BitVec.eq_of_toNat_eq
  have hv := v.isLt
  rw [BitVec.toNat_append, ← Nat.shiftLeft_add_eq_or_of_lt (by decide), BitVec.toNat_shiftLeft, signExtend_toNat]
  simp only [Nat.shiftLeft_eq, BitVec.toNat_ofNat]
  split <;> omega

/-- A shift left by two is a multiplication by four (R45). -/
theorem branchOffset_eq (imm : BitVec 16) : branchOffset imm = signExtend imm * 4 := by
  apply BitVec.eq_of_toNat_eq
  simp [branchOffset, Nat.shiftLeft_eq, BitVec.toNat_mul]

/-- The branch target as an integer sum, modulo 2^32 (R101, R104). -/
theorem branchTarget_eq (pc : Word) (v : BitVec 16) :
    branchTarget pc v = BitVec.ofInt 32 (pc.toNat + 4 + 4 * v.toInt) := by
  rw [branchTarget, branchOffset_eq]
  apply BitVec.eq_of_toInt_eq
  rw [BitVec.toInt_add, BitVec.toInt_add, BitVec.toInt_mul, signExtend_eq, BitVec.toInt_signExtend_of_le (by omega),
    BitVec.toInt_ofInt, BitVec.toInt_eq_toNat_bmod]
  simp only [BitVec.toInt_ofNat, Int.bmod_add_bmod, Int.add_bmod_bmod]
  simp
  congr 1
  ring

/-- The address a jump forms, as a number (R73). -/
theorem jump_toNat (p : Word) (target : BitVec 26) :
    (p.extractLsb' 28 4 ++ target ++ 0b00#2).toNat = p.toNat / 2 ^ 28 * 2 ^ 28 + target.toNat * 4 := by
  have hp := p.isLt
  have ht := target.isLt
  simp only [BitVec.toNat_append, BitVec.extractLsb'_toNat, BitVec.toNat_ofNat, Nat.shiftRight_eq_div_pow]
  rw [← Nat.shiftLeft_add_eq_or_of_lt (by omega), ← Nat.shiftLeft_add_eq_or_of_lt ht]
  simp only [Nat.shiftLeft_eq]
  omega

end Sys2Proof.Machine
end

