-- ==== Sys2Proof/Laws/Datapath.lean ====
section
/-! SUPPORT. Each component of the datapath, and the last three stages when no memory is accessed. -/

namespace Sys2Proof.Machine

/-- The Memory Access Unit with neither flag does nothing (R70). -/
theorem memAccess_neither (r d2 : Word) (m : Memory) :
    memAccess r d2 false false m = .ok (m, Config.unreadLoadValue r) := rfl

/-- The Register Writeback Unit ignores the load value unless MemtoReg is set (R72). -/
theorem writeback_loadValue (regWrite regDst : Bool) (rt rd : Reg) (l l' r : Word) (s : State) :
    writeback regWrite false regDst rt rd l r s = writeback regWrite false regDst rt rd l' r s := rfl

theorem writeback_none (memToReg regDst : Bool) (rt rd : Reg) (l r : Word) (s : State) :
    writeback false memToReg regDst rt rd l r s = s := rfl

@[simp] theorem writeback_pc (w m d : Bool) (rt rd : Reg) (l r : Word) (s : State) :
    (writeback w m d rt rd l r s).pc = s.pc := by
  cases w <;> rfl

@[simp] theorem writeback_mem (w m d : Bool) (rt rd : Reg) (l r : Word) (s : State) :
    (writeback w m d rt rd l r s).mem = s.mem := by
  cases w <;> rfl

/-- Without a memory access the last stages complete, and the undefined load value reaches no register (D14). -/
theorem commitStages_noAccess (f : Fields) (c : ControlVector) (op : AluOp) (s : State) (hr : c.memRead = false)
    (hw : c.memWrite = false) (ht : c.memToReg = false) :
    commitStages f c op s = .ok ((writeback c.regWrite false c.regDst f.rt f.rd 0 (aluStage f c op s).1 s).setPc
      (pcUpdate s.pc c.branch c.jump (aluStage f c op s).2 (signExtend f.imm) f.target)) := by
  unfold commitStages
  rw [hr, hw, ht, memAccess_neither]
  have e := writeback_mem c.regWrite false c.regDst f.rt f.rd 0 (aluStage f c op s).1 s
  conv_rhs => rw [← State.setMem_self (writeback c.regWrite false c.regDst f.rt f.rd 0 (aluStage f c op s).1 s), e]
  rfl

/-- Without a branch or a jump the pc advances (R73). -/
theorem pcUpdate_advance (pc : Word) (zero : Bool) (e : Word) (target : BitVec 26) :
    pcUpdate pc false false zero e target = pc + 4 := rfl

end Sys2Proof.Machine
end

