-- ==== Sys2Proof/Laws/Exec.lean ====
section
/-! SUPPORT. What each meaning is, written over the state's updates, and all that an executed instruction can do. -/

namespace Sys2Proof.Machine

/-! ## The register-writing instructions -/

theorem exec_add (rd rs rt : Reg) (s : State) :
    exec (.add rd rs rt) s = .next ((s.setReg rd (s.reg rs + s.reg rt)).advance) := rfl
theorem exec_sub (rd rs rt : Reg) (s : State) :
    exec (.sub rd rs rt) s = .next ((s.setReg rd (s.reg rs - s.reg rt)).advance) := rfl
theorem exec_and (rd rs rt : Reg) (s : State) :
    exec (.and rd rs rt) s = .next ((s.setReg rd (s.reg rs &&& s.reg rt)).advance) := rfl
theorem exec_or (rd rs rt : Reg) (s : State) :
    exec (.or rd rs rt) s = .next ((s.setReg rd (s.reg rs ^^^ s.reg rt)).advance) := rfl
theorem exec_slt (rd rs rt : Reg) (s : State) :
    exec (.slt rd rs rt) s = .next ((s.setReg rd (sltWord (decide ((s.reg rs).toInt < (s.reg rt).toInt)))).advance) :=
  rfl
theorem exec_sltu (rd rs rt : Reg) (s : State) :
    exec (.sltu rd rs rt) s =
      .next ((s.setReg rd (sltWord (decide ((s.reg rs).toNat < (s.reg rt).toNat)))).advance) := rfl
theorem exec_addi (rt rs : Reg) (imm : BitVec 16) (s : State) :
    exec (.addi rt rs imm) s = .next ((s.setReg rt (s.reg rs + signExtend imm)).advance) := rfl
theorem exec_slti (rt rs : Reg) (imm : BitVec 16) (s : State) :
    exec (.slti rt rs imm) s =
      .next ((s.setReg rt (sltWord (decide ((s.reg rs).toInt < (signExtend imm).toInt)))).advance) := rfl
theorem exec_sltiu (rt rs : Reg) (imm : BitVec 16) (s : State) :
    exec (.sltiu rt rs imm) s =
      .next ((s.setReg rt (sltWord (decide ((s.reg rs).toNat < (signExtend imm).toNat)))).advance) := rfl
theorem exec_lui (rt : Reg) (imm : BitVec 16) (s : State) :
    exec (.lui rt imm) s = .next ((s.setReg rt (signExtend imm <<< 16)).advance) := rfl

@[simp] theorem sltWord_eq (b : Bool) : sltWord b = if b then 1#32 else 0#32 := by simp [sltWord]

/-! ## Load, store, transfer -/

theorem exec_lw (rt rs : Reg) (imm : BitVec 16) (s : State) :
    exec (.lw rt rs imm) s = match memRead s.mem (effectiveAddress s rs imm) with
      | .error f => .fault f
      | .ok v => .next ((s.setReg rt v).advance) := rfl
theorem exec_sw (rt rs : Reg) (imm : BitVec 16) (s : State) :
    exec (.sw rt rs imm) s = match memWrite s.mem (effectiveAddress s rs imm) (s.reg rt) with
      | .error f => .fault f
      | .ok m => .next ((s.setMem m).advance) := rfl
theorem exec_j (target : BitVec 26) (s : State) : exec (.j target) s = .next (s.setPc (jumpAddress s.pc target)) := rfl
theorem exec_beq (rs rt : Reg) (imm : BitVec 16) (s : State) :
    exec (.beq rs rt imm) s = .next (s.setPc (if s.reg rs = s.reg rt then branchTarget s.pc imm else s.pc + 4)) := by
  have h := zeroFlag_sub (s.reg rs) (s.reg rt)
  show Host.Outcome.next (s.setPc (if zeroFlag (s.reg rs - s.reg rt) = true then _ else _)) = _
  by_cases e : s.reg rs = s.reg rt
  · rw [if_pos (h.2 e), if_pos e]
  · rw [if_neg (fun c => e (h.1 c)), if_neg e]; rfl

/-! ## All that an executed instruction can do -/

/-- A completed instruction writes one register and advances, stores one word and advances, or sets the pc. -/
theorem exec_next_cases {i : Instr} {s t : State} (h : exec i s = .next t) :
    (∃ d v, t = (s.setReg d v).advance) ∨
      (∃ rt rs imm m, i = .sw rt rs imm ∧ memWrite s.mem (effectiveAddress s rs imm) (s.reg rt) = .ok m ∧
        t = (s.setMem m).advance) ∨
      (∃ p, t = s.setPc p ∧ (p = s.pc + 4 ∨ (∃ imm, p = branchTarget s.pc imm) ∨ ∃ a, p = jumpAddress s.pc a)) := by
  cases i with
  | lw rt rs imm =>
    rw [exec_lw] at h
    split at h
    · cases h
    · exact .inl ⟨_, _, (Host.Outcome.next.inj h).symm⟩
  | sw rt rs imm =>
    rw [exec_sw] at h
    split at h
    · cases h
    · exact .inr (.inl ⟨_, _, _, _, rfl, ‹_›, (Host.Outcome.next.inj h).symm⟩)
  | beq rs rt imm =>
    rw [exec_beq] at h
    refine .inr (.inr ⟨_, (Host.Outcome.next.inj h).symm, ?_⟩)
    split
    · exact .inr (.inl ⟨_, rfl⟩)
    · exact .inl rfl
  | j target =>
    rw [exec_j] at h
    exact .inr (.inr ⟨_, (Host.Outcome.next.inj h).symm, .inr (.inr ⟨_, rfl⟩)⟩)
  | add | sub | and | or | slt | sltu | addi | slti | sltiu | lui =>
    exact .inl ⟨_, _, (Host.Outcome.next.inj h).symm⟩

/-- Only a load or a store stops, and it stops as its data access does. -/
theorem exec_fault_cases {i : Instr} {s : State} {f : Fault} (h : exec i s = .fault f) :
    (∃ rt rs imm, i = .lw rt rs imm ∧ memRead s.mem (effectiveAddress s rs imm) = .error f) ∨
      ∃ rt rs imm, i = .sw rt rs imm ∧ memWrite s.mem (effectiveAddress s rs imm) (s.reg rt) = .error f := by
  cases i with
  | lw rt rs imm =>
    rw [exec_lw] at h
    split at h
    · exact .inl ⟨_, _, _, rfl, by rw [‹memRead _ _ = _›, Host.Outcome.fault.inj h]⟩
    · cases h
  | sw rt rs imm =>
    rw [exec_sw] at h
    split at h
    · exact .inr ⟨_, _, _, rfl, by rw [‹memWrite _ _ _ = _›, Host.Outcome.fault.inj h]⟩
    · cases h
  | beq rs rt imm =>
    rw [exec_beq] at h
    cases h
  | add | sub | and | or | slt | sltu | addi | slti | sltiu | lui | j => cases h

/-- No meaning refuses. -/
theorem exec_ne_refused (i : Instr) (s : State) (r : Refusal) : exec i s ≠ .refused r := by
  intro h
  cases i with
  | lw rt rs imm =>
    rw [exec_lw] at h
    split at h <;> cases h
  | sw rt rs imm =>
    rw [exec_sw] at h
    split at h <;> cases h
  | beq rs rt imm =>
    rw [exec_beq] at h
    cases h
  | add | sub | and | or | slt | sltu | addi | slti | sltiu | lui | j => cases h

end Sys2Proof.Machine
end

