-- ==== Sys2Proof/Laws/PerInstr.lean ====
section
/-! SUPPORT. Statements made of every instruction, one lemma per constructor. -/

/-! ## EncodeLegal: the word of an instruction passes the Legality Checker (R55). -/

namespace Sys2Proof.Laws.EncodeLegal

/-- The encoder writes only legal words. -/
def Statement (i : Instr) : Prop := legal (encode i) = true

/-- An opcode-0 word with one of the six functs is legal. -/
theorem legal_rWord {fn : BitVec 6} (rd rs rt : Reg) (h : fn ∈ config.functs) : legal (rWord fn rd rs rt) = true := by
  obtain ⟨h1, h2, _⟩ := rWord_fields fn rd rs rt
  exact (legal_iff _).2 (.inl ⟨h1, by rw [h2]; exact h⟩)

/-- A word with one of the eight other opcodes is legal. -/
theorem legal_iWord {op : BitVec 6} (rs rt : Reg) (imm : BitVec 16) (h0 : op ≠ config.opRType)
    (h : op ∈ config.wholeOpcodes) : legal (iWord op rs rt imm) = true := by
  obtain ⟨h1, _⟩ := iWord_fields op rs rt imm
  exact (legal_iff _).2 (.inr ⟨by rw [h1]; exact h0, by rw [h1]; exact h⟩)

theorem add (rd rs rt : Reg) : Statement (.add rd rs rt) := legal_rWord rd rs rt (by decide)
theorem sub (rd rs rt : Reg) : Statement (.sub rd rs rt) := legal_rWord rd rs rt (by decide)
theorem and (rd rs rt : Reg) : Statement (.and rd rs rt) := legal_rWord rd rs rt (by decide)
theorem or (rd rs rt : Reg) : Statement (.or rd rs rt) := legal_rWord rd rs rt (by decide)
theorem slt (rd rs rt : Reg) : Statement (.slt rd rs rt) := legal_rWord rd rs rt (by decide)
theorem sltu (rd rs rt : Reg) : Statement (.sltu rd rs rt) := legal_rWord rd rs rt (by decide)
theorem addi (rt rs : Reg) (imm : BitVec 16) : Statement (.addi rt rs imm) :=
  legal_iWord rs rt imm (by decide) (by decide)
theorem slti (rt rs : Reg) (imm : BitVec 16) : Statement (.slti rt rs imm) :=
  legal_iWord rs rt imm (by decide) (by decide)
theorem sltiu (rt rs : Reg) (imm : BitVec 16) : Statement (.sltiu rt rs imm) :=
  legal_iWord rs rt imm (by decide) (by decide)
theorem lui (rt : Reg) (imm : BitVec 16) : Statement (.lui rt imm) := legal_iWord 0 rt imm (by decide) (by decide)
theorem lw (rt rs : Reg) (imm : BitVec 16) : Statement (.lw rt rs imm) :=
  legal_iWord rs rt imm (by decide) (by decide)
theorem sw (rt rs : Reg) (imm : BitVec 16) : Statement (.sw rt rs imm) :=
  legal_iWord rs rt imm (by decide) (by decide)
theorem beq (rs rt : Reg) (imm : BitVec 16) : Statement (.beq rs rt imm) :=
  legal_iWord rs rt imm (by decide) (by decide)
theorem j (target : BitVec 26) : Statement (.j target) := by
  obtain ⟨h1, _⟩ := jWord_fields config.opJ target
  exact (legal_iff _).2 (.inr ⟨by rw [encode, h1]; decide, by rw [encode, h1]; decide⟩)

end Sys2Proof.Laws.EncodeLegal
end

