-- ==== Sys2Proof/Laws/Step.lean ====
section
/-! SUPPORT. The fetch, and all that a cycle can do. -/

namespace Sys2Proof.Machine

/-! ## Legality and decoding agree -/

/-- The decoder refuses exactly the words the Legality Checker refuses. -/
theorem decode_error_iff_not_legal (w : Word) : (∃ e, decode w = .error e) ↔ legal w = false := by
  rw [← Bool.not_eq_true, legal_iff]
  simp only [decode, decodeRType, Config.functs, Config.wholeOpcodes, List.mem_cons, List.not_mem_nil, or_false]
  by_cases h : (partition w).opcode = config.opRType
  · simp only [h, if_true]
    split_ifs <;> simp_all
  · simp only [h, if_false]
    split_ifs <;> simp_all

/-! ## Fetch -/

/-- The four ends of a fetch, by the pc and the word (R56). -/
theorem fetch_cases (pc : Word) (m : Memory) :
    (pc.toNat % 4 ≠ 0 ∧ fetch pc m = .error (.halt .pcMisaligned)) ∨
      (pc.toNat % 4 = 0 ∧ 0x40000 ≤ pc.toNat ∧ fetch pc m = .error (.halt .pcOutOfRange)) ∨
      (pc.toNat % 4 = 0 ∧ pc.toNat ≤ 0x3FFFC ∧ legal (m.word (pc.toNat / 4)) = false ∧
        fetch pc m = .error (.halt .illegalInstruction)) ∨
      (pc.toNat % 4 = 0 ∧ pc.toNat ≤ 0x3FFFC ∧ legal (m.word (pc.toNat / 4)) = true ∧
        fetch pc m = .ok (m.word (pc.toNat / 4))) := by
  unfold fetch raiseHalt
  by_cases h : pc.toNat % 4 = 0
  · by_cases h' : pc.toNat / 4 > config.memWords - 1
    · refine .inr (.inl ⟨h, ?_, ?_⟩)
      · simp only [config_memWords] at h'
        omega
      · rw [if_neg (by omega), if_pos h']
    · have hb : pc.toNat ≤ 0x3FFFC := by
        simp only [config_memWords] at h'
        omega
      cases hl : legal (m.word (pc.toNat / 4)) with
      | false =>
        refine .inr (.inr (.inl ⟨h, hb, rfl, ?_⟩))
        rw [if_neg (by omega), if_neg h', if_neg (by simp)]
      | true =>
        refine .inr (.inr (.inr ⟨h, hb, rfl, ?_⟩))
        rw [if_neg (by omega), if_neg h', if_pos rfl]
  · exact .inl ⟨h, by rw [if_pos h]⟩

/-! ## Data accesses of an instruction -/

theorem dataAddress_cases {i : Instr} {s : State} {a : Word} (h : i.dataAddress s = some a) :
    (∃ rt rs imm, i = .lw rt rs imm ∧ a = effectiveAddress s rs imm) ∨
      ∃ rt rs imm, i = .sw rt rs imm ∧ a = effectiveAddress s rs imm := by
  cases i with
  | lw rt rs imm => exact .inl ⟨_, _, _, rfl, (Option.some.inj h).symm⟩
  | sw rt rs imm => exact .inr ⟨_, _, _, rfl, (Option.some.inj h).symm⟩
  | add | sub | and | or | slt | sltu | addi | slti | sltiu | lui | beq | j => cases h

/-- An instruction stops exactly when it has a data address and the checks of that address stop. -/
theorem exec_fault_iff (i : Instr) (s : State) (f : Fault) :
    exec i s = .fault f ↔ ∃ a, i.dataAddress s = some a ∧ checkDataAddress a = .error f := by
  constructor
  · intro h
    rcases exec_fault_cases h with ⟨_, _, _, rfl, e⟩ | ⟨_, _, _, rfl, e⟩
    · refine ⟨_, rfl, ?_⟩
      unfold memRead at e
      split at e
      · rw [‹checkDataAddress _ = _›, ← Except.error.inj e]
      · cases e
    · refine ⟨_, rfl, ?_⟩
      unfold memWrite at e
      split at e
      · rw [‹checkDataAddress _ = _›, ← Except.error.inj e]
      · cases e
  · rintro ⟨a, h, e⟩
    rcases dataAddress_cases h with ⟨_, _, _, rfl, rfl⟩ | ⟨_, _, _, rfl, rfl⟩
    · rw [exec_lw, memRead, e]
    · rw [exec_sw, memWrite, e]

theorem memRead_accessible {a : Word} (h : Accessible a) (m : Memory) : memRead m a = .ok (m.word (a.toNat / 4)) := by
  rw [memRead, checkDataAddress_inside h.1 h.2]

theorem memWrite_accessible {a : Word} (h : Accessible a) (m : Memory) (v : Word) :
    memWrite m a v = .ok (m.setWord (a.toNat / 4) v) := by
  rw [memWrite, checkDataAddress_inside h.1 h.2]

/-- The word of an accessible address lies in the memory, and its bytes start at the address. -/
theorem Accessible.word {a : Word} (h : Accessible a) : a.toNat / 4 < config.memWords ∧ 4 * (a.toNat / 4) = a.toNat := by
  obtain ⟨h1, h2⟩ := h
  simp only [config_memWords]
  omega

/-- A register write followed by the advance is all of `WritesReg`. -/
theorem writesReg_setReg_advance (s : State) (d : Reg) (v : Word) : WritesReg s ((s.setReg d v).advance) d v where
  result := by simp
  regs r h := by simp [State.setReg_reg_ne s v h]
  mem _ := rfl
  pc := rfl

/-! ## All that a cycle can do -/

/-- A cycle halts in the fetch, with one of three causes, or runs an instruction. -/
theorem step_cases (s : State) :
    (s.pc.toNat % 4 ≠ 0 ∧ step s = .fault (.halt .pcMisaligned)) ∨
      (s.pc.toNat % 4 = 0 ∧ 0x40000 ≤ s.pc.toNat ∧ step s = .fault (.halt .pcOutOfRange)) ∨
      (s.pc.toNat % 4 = 0 ∧ s.pc.toNat ≤ 0x3FFFC ∧ legal (s.mem.word (s.pc.toNat / 4)) = false ∧
        step s = .fault (.halt .illegalInstruction)) ∨
      (∃ i, Runs s i ∧ legal (s.mem.word (s.pc.toNat / 4)) = true ∧ step s = exec i s) := by
  unfold step
  rcases fetch_cases s.pc s.mem with ⟨h, e⟩ | ⟨h, h', e⟩ | ⟨h, h', hl, e⟩ | ⟨h, h', hl, e⟩
  · exact .inl ⟨h, by rw [e]⟩
  · exact .inr (.inl ⟨h, h', by rw [e]⟩)
  · exact .inr (.inr (.inl ⟨h, h', hl, by rw [e]⟩))
  · right; right; right
    cases hd : decode (s.mem.word (s.pc.toNat / 4)) with
    | ok i => exact ⟨i, ⟨h, h', hd⟩, hl, by rw [e]; simp only [hd]⟩
    | error x => simp [(decode_error_iff_not_legal _).1 ⟨x, hd⟩] at hl

/-- A cycle that completes ran an instruction. -/
theorem step_next {s t : State} (h : step s = .next t) : ∃ i, Runs s i ∧ exec i s = .next t := by
  rcases step_cases s with ⟨_, e⟩ | ⟨_, _, e⟩ | ⟨_, _, _, e⟩ | ⟨i, hr, _, e⟩ <;> rw [e] at h
  · cases h
  · cases h
  · cases h
  · exact ⟨i, hr, h⟩

/-- The instruction a cycle runs is one. -/
theorem Runs.unique {s : State} {i k : Instr} (hi : Runs s i) (hk : Runs s k) : i = k :=
  Except.ok.inj (hi.2.2.symm.trans hk.2.2)

/-! ## Runs -/

/-- What holds at the launch and is kept by every cycle holds of every state a run reaches. -/
theorem Reaches.invariant {P : State → Prop} (hstep : ∀ s t, P s → step s = .next t → P t) {s t : State}
    (h : Reaches s t) (hs : P s) : P t := by
  induction h with
  | refl => exact hs
  | tail _ e ih => exact hstep _ _ ih e

theorem Reaches.head {s t u : State} (e : step s = .next t) (h : Reaches t u) : Reaches s u := by
  induction h with
  | refl => exact .tail (.refl s) e
  | tail _ e' ih => exact .tail ih e'

/-- The three answers of an invocation, by the step. -/
theorem invoke_completed_iff (s t : State) : invoke s = .completed t ↔ step s = .next t := by
  unfold invoke
  split <;> simp_all

theorem invoke_halted_iff (s t : State) (c : HaltCause) :
    invoke s = .halted c t ↔ step s = .fault (.halt c) ∧ t = s := by
  unfold invoke
  split <;> rename_i h <;> simp [h, eq_comm (a := t)]

theorem invoke_unspecified_iff (s : State) (r : UnspecifiedReason) :
    invoke s = .unspecified r ↔ step s = .fault (.unspecified r) := by
  unfold invoke
  split <;> simp_all

/-- The one end that counts as normal. -/
theorem Invocation.endsNormally_iff (e : Invocation) (a w : Word) :
    e.endsNormally a w = true ↔
      ∃ u, e = .halted .illegalInstruction u ∧ u.pc = a ∧ u.mem.word (a.toNat / 4) = w := by
  unfold Invocation.endsNormally
  split <;> simp_all

/-- A run one cycle longer: that cycle completes and the run goes on, or it ends the run. -/
theorem runFrom_succ (s : State) (n : Nat) :
    (∃ t, step s = .next t ∧ runFrom s (n + 1) = ((runFrom t n).1 + 1, (runFrom t n).2)) ∨
      ((∀ t, invoke s ≠ .completed t) ∧ runFrom s (n + 1) = (0, invoke s)) := by
  rw [runFrom]
  cases h : invoke s with
  | completed t => exact .inl ⟨t, (invoke_completed_iff s t).1 h, rfl⟩
  | halted c t => exact .inr ⟨fun _ e => (nomatch e), rfl⟩
  | unspecified r => exact .inr ⟨fun _ e => (nomatch e), rfl⟩
  | refused r => exact .inr ⟨fun _ e => (nomatch e), rfl⟩

/-- A run of any state reached ends as the run from the launch does, after as many cycles more. -/
theorem Reaches.runFrom {s t : State} (h : Reaches s t) :
    ∃ k, ∀ n, runFrom s (k + n) = (k + (runFrom t n).1, (runFrom t n).2) := by
  induction h with
  | refl => exact ⟨0, fun n => by simp⟩
  | @tail t u _ e ih =>
    obtain ⟨k, hk⟩ := ih
    refine ⟨k + 1, fun n => ?_⟩
    rw [show k + 1 + n = k + (n + 1) by omega, hk]
    rcases runFrom_succ t n with ⟨t', e', h'⟩ | ⟨h', _⟩
    · cases e.symm.trans e'
      rw [h']
      exact Prod.ext (by dsimp only; omega) rfl
    · exact absurd ((invoke_completed_iff t u).2 e) (h' u)

/-- Every run of at most `n` cycles stands at a state it reaches: all `n` completed, or fewer and the next ended it. -/
theorem runFrom_cases (s : State) (n : Nat) :
    ∃ k u, Reaches s u ∧ ((k = n ∧ runFrom s n = (k, .completed u)) ∨
      (k < n ∧ (∀ t, invoke u ≠ .completed t) ∧ runFrom s n = (k, invoke u))) := by
  induction n generalizing s with
  | zero => exact ⟨0, s, .refl s, .inl ⟨rfl, rfl⟩⟩
  | succ n ih =>
    rcases runFrom_succ s n with ⟨t, e, h⟩ | ⟨hn, h⟩
    · obtain ⟨k, u, hr, ⟨hk, e'⟩ | ⟨hk, hn, e'⟩⟩ := ih t
      · exact ⟨k + 1, u, hr.head e, .inl ⟨by omega, by rw [h, e']⟩⟩
      · exact ⟨k + 1, u, hr.head e, .inr ⟨by omega, hn, by rw [h, e']⟩⟩
    · exact ⟨0, s, .refl s, .inr ⟨by omega, hn, h⟩⟩

end Sys2Proof.Machine
end

