-- ==== Sys2Proof/Tests/Slice0.lean ====
section
/-! SUPPORT. The model's own tests. Expected values are the spec's (spec/95_test_vectors.md, or the rule named), never the
model's. Then one witness for each statement that has hypotheses. -/

namespace Sys2Proof.Tests

open Sys2Proof.Machine

/-! ## Well-formed assembly forms (R51): each check refuses an ill-formed form, and takes one at its boundary -/

theorem test_wf_register : (Asm.reg .add 32 1 2).wf 0 = false ∧ (Asm.reg .add 31 0 31).wf 0 = true := by decide
theorem test_wf_second_register : (Asm.reg .sub 3 32 2).wf 0 = false ∧ (Asm.reg .or 3 1 32).wf 0 = false := by decide
theorem test_wf_immediate : (Asm.imm .addi 2 1 65536).wf 0 = false ∧ (Asm.imm .addi 2 1 (-32769)).wf 0 = false ∧
    (Asm.imm .addi 2 1 65535).wf 0 = true ∧ (Asm.imm .addi 2 1 (-32768)).wf 0 = true := by decide
theorem test_wf_pattern : (Asm.lui 2 65536).wf 0 = false ∧ (Asm.lui 2 65535).wf 0 = true := by decide
theorem test_wf_displacement : (Asm.mem .lw 2 65536 1).wf 0 = false ∧ (Asm.mem .sw 2 (-4) 32).wf 0 = false := by decide
theorem test_wf_offset : (Asm.beq 1 2 32768).wf 0 = false ∧ (Asm.beq 1 2 32767).wf 0 = true := by decide
theorem test_wf_label : (Asm.beqTo 1 2 0x102).wf 0x100 = false ∧ (Asm.beqTo 1 2 0x20104).wf 0x100 = false ∧
    (Asm.beqTo 1 2 0x20100).wf 0x100 = true := by decide
theorem test_wf_jump : (Asm.j 0x102).wf 0x100 = false ∧ (Asm.j 0x10000000).wf 0x100 = false ∧
    (Asm.j 0x0FFFFFFC).wf 0x100 = true := by decide
theorem test_asm_words : ((Asm.mem .lw 2 (-4) 1).instr 0).map encode = some 0x8C22FFFC#32 ∧
    ((Asm.j 0x200).instr 0x11C).map encode = some 0x08000080#32 ∧
    ((Asm.beqTo 1 0 0x18).instr 8).map encode = some 0x10200003#32 := by decide

/-! ## Encodings, bit by bit (R42 to R46): opcode, rs, rt, rd, ignored, funct -/

theorem test_bits_add : decode (0b000000#6 ++ 0b00001#5 ++ 0b00010#5 ++ 0b00011#5 ++ 0b00000#5 ++ 0b100000#6) =
    .ok (.add 3 1 2) := by decide
theorem test_bits_sltu : decode (0b000000#6 ++ 0b00001#5 ++ 0b00010#5 ++ 0b00011#5 ++ 0b11111#5 ++ 0b101011#6) =
    .ok (.sltu 3 1 2) := by decide
theorem test_bits_slti : decode (0b001010#6 ++ 0b11110#5 ++ 0b00010#5 ++ 0b1000000000000001#16) =
    .ok (.slti 2 30 0x8001) := by decide
theorem test_bits_lui : decode (0b001111#6 ++ 0b11111#5 ++ 0b00010#5 ++ 0b0001001000110100#16) =
    .ok (.lui 2 0x1234) := by decide
theorem test_bits_lw : decode (0b100011#6 ++ 0b00001#5 ++ 0b00010#5 ++ 0b1111111111111100#16) =
    .ok (.lw 2 1 0xFFFC) := by decide
theorem test_bits_sw : decode (0b101011#6 ++ 0b00001#5 ++ 0b00010#5 ++ 0b0000000000000010#16) =
    .ok (.sw 2 1 2) := by decide
theorem test_bits_beq : decode (0b000100#6 ++ 0b00001#5 ++ 0b00010#5 ++ 0b0000000000000011#16) =
    .ok (.beq 1 2 3) := by decide
theorem test_bits_j : decode (0b000010#6 ++ 0b00000000000000000001000000#26) = .ok (.j 0x40) := by decide
theorem test_words_rtype : decode 0x00221821#32 = .ok (.sub 3 1 2) ∧ decode 0x00221824#32 = .ok (.and 3 1 2) ∧
    decode 0x00221825#32 = .ok (.or 3 1 2) ∧ decode 0x0022182A#32 = .ok (.slt 3 1 2) := by decide
theorem test_words_itype : decode 0x20220007#32 = .ok (.addi 2 1 7) ∧ decode 0x2C22FFFF#32 = .ok (.sltiu 2 1 0xFFFF) := by
  decide
/-- S1: the words it lists as legal are. -/
theorem test_legal : [0x00221820#32, 0x00221821#32, 0x00221824#32, 0x00221825#32, 0x0022182A#32, 0x0022182B#32,
    0x00221FE0#32, 0x20220007#32, 0x2822FFFF#32, 0x2C22FFFF#32, 0x3C021234#32, 0x8C220008#32, 0xAC220000#32,
    0x10220003#32, 0x08000040#32].all legal = true := by decide
/-- S1: the words it lists as illegal are not legal. -/
theorem test_illegal : [0x00000000#32, 0x00221822#32, 0x00221823#32, 0x00221826#32, 0x00221827#32, 0x00021C04#32,
    0x0000000C#32, 0x03E00008#32, 0xFC000020#32, 0x04000000#32, 0x0C000040#32, 0x14220003#32, 0x24220007#32,
    0x30220007#32, 0x34220007#32, 0x80220008#32, 0xA0220000#32, 0xFFFFFFFF#32].any legal = false := by decide
theorem test_table_word : decodeTableWord 32 0x8C22FFFC = some (.lw 2 1 0xFFFC) ∧ decodeTableWord 32 0 = none := by decide
/-- 2.1: the Field Partitioner on 0x8C22FFFC. -/
theorem test_partition : partition 0x8C22FFFC#32 =
    { opcode := 0x23, rs := 1, rt := 2, rd := 31, funct := 0x3C, imm := 0xFFFC, target := 0x022FFFC } := by decide

/-! ## Components (spec/95_test_vectors.md 2.2 to 2.4, 2.8) -/

/-- 2.2: the control table, row by row. -/
theorem test_control_table :
    controlDecoder 0x00 = .ok { regDst := true, regWrite := true, aluOp := 7 } ∧
    controlDecoder 0x02 = .ok { jump := true } ∧
    controlDecoder 0x04 = .ok { branch := true, aluOp := 1 } ∧
    controlDecoder 0x08 = .ok { aluSrc := true, regWrite := true, aluOp := 0 } ∧
    controlDecoder 0x0A = .ok { aluSrc := true, regWrite := true, aluOp := 2 } ∧
    controlDecoder 0x0B = .ok { aluSrc := true, regWrite := true, aluOp := 3 } ∧
    controlDecoder 0x0F = .ok { aluSrc := true, regWrite := true, aluOp := 6 } ∧
    controlDecoder 0x23 =
      .ok { memRead := true, memToReg := true, aluSrc := true, regWrite := true, aluOp := 0 } ∧
    controlDecoder 0x2B = .ok { memWrite := true, aluSrc := true, aluOp := 0 } ∧
    controlDecoder 0x3F = .error (.halt .controlDecodeFault) := by decide
/-- 2.4: the ALU on A = 80000001, B = 00018003, codes 0 to 7. -/
theorem test_alu : ([0, 1, 2, 3, 4, 5, 6, 7].map fun c => (alu 0x80000001#32 0x00018003#32 (AluOp.ofCode c)).1) =
    [0x80018004, 0x7FFE7FFE, 1, 0, 1, 0x80018002, 0x80030000, 0x7FFFFFFE] := by decide
/-- 2.8: the kept bits come from pc + 4. -/
theorem test_pc_updater_keeps_next_pc : pcUpdate 0xEFFFFFFC#32 false true false 0 1 = 0xF0000004#32 := by decide
/-- 2.7: both flags, address 8, store data 7, old word 1. -/
theorem test_both_flags : ((memAccess 8 7 true true (Memory.setWord [] 2 1)).map fun p => (p.1.word 2, p.2)) =
    .ok (7, 7) := by decide

/-! ## One step on a small state -/

/-- The state with the word `w` at `pc`, registers 1 and 2 set, every other register and word 0. -/
def at0 (pc w x1 x2 : Word) : State :=
  (((State.reset.setReg 1 x1).setReg 2 x2).setPc pc).setMem (Memory.setWord [] (pc.toNat / 4) w)

/-- One register and the pc after a step, or none if it stops. -/
def regPc (r : Reg) (s : State) : Option (Word × Word) :=
  match step s with
  | .next t => some (t.reg r, t.pc)
  | .fault _ => none
  | .refused _ => none

/-- One memory word and the pc after a step, or none if it stops. -/
def wordPc (i : Nat) (s : State) : Option (Word × Word) :=
  match step s with
  | .next t => some (t.mem.word i, t.pc)
  | .fault _ => none
  | .refused _ => none

/-- S9. -/
theorem test_add : regPc 3 (at0 0x100 0x00221820 5 7) = some (0xC, 0x104) := by decide
theorem test_add_wraps : regPc 3 (at0 0x100 0x00221820 0xFFFFFFFF 0xFFFFFFFF) = some (0xFFFFFFFE, 0x104) := by decide
theorem test_sub : regPc 3 (at0 0x100 0x00221821 5 7) = some (0xFFFFFFFE, 0x104) := by decide
theorem test_and : regPc 3 (at0 0x100 0x00221824 0xF0F0F0F0 0xFF00FF00) = some (0xF000F000, 0x104) := by decide
theorem test_or_is_xor : regPc 3 (at0 0x100 0x00221825 0xF0F0F0F0 0xFF00FF00) = some (0x0FF00FF0, 0x104) := by decide
/-- 2.5: `or $1, $1, $1` clears. -/
theorem test_or_same : regPc 1 (at0 0x100 0x00210825 0x12345678 0) = some (0, 0x104) := by decide
theorem test_slt : regPc 3 (at0 0x100 0x0022182A 0x80000000 0x7FFFFFFF) = some (1, 0x104) := by decide
theorem test_sltu : regPc 3 (at0 0x100 0x0022182B 0x80000000 0x7FFFFFFF) = some (0, 0x104) := by decide
/-- 2.5: `add $0, $1, $2` writes register 0. -/
theorem test_register_zero : regPc 0 (at0 0x100 0x00220020 5 7) = some (0xC, 0x104) := by decide
theorem test_addi : regPc 2 (at0 0x100 0x2022FFFF 5 0) = some (4, 0x104) := by decide
theorem test_addi_wraps : regPc 2 (at0 0x100 0x20220001 0x7FFFFFFF 0) = some (0x80000000, 0x104) := by decide
theorem test_slti : regPc 2 (at0 0x100 0x2822FFFF 5 9) = some (0, 0x104) := by decide
/-- 2.6: zero extension would give 0. -/
theorem test_sltiu : regPc 2 (at0 0x100 0x2C228000 0x10000 0) = some (1, 0x104) := by decide
theorem test_sltiu_edge : regPc 2 (at0 0x100 0x2C228000 0xFFFF8000 9) = some (0, 0x104) := by decide
theorem test_lui : regPc 2 (at0 0x100 0x3C021234 0 0xFFFFFFFF) = some (0x12340000, 0x104) := by decide
/-- 2.7: the address wraps to 4. -/
theorem test_lw_wraps : regPc 2 ((at0 0x100 0x8C220008 0xFFFFFFFC 0).setMem
    ((Memory.setWord [] 0x40 0x8C220008).setWord 1 0xDEADBEEF)) = some (0xDEADBEEF, 0x104) := by decide
theorem test_lw_own_base : regPc 1 ((at0 0x100 0x8C210000 0x40 0).setMem
    ((Memory.setWord [] 0x40 0x8C210000).setWord 16 0x80)) = some (0x80, 0x104) := by decide
/-- S10. -/
theorem test_sw : wordPc 2 (at0 0x100 0xAC220000 8 99) = some (99, 0x104) := by decide
theorem test_sw_last_word : wordPc 65535 (at0 0x100 0xAC22FFFC 0x40000 5) = some (5, 0x104) := by decide
/-- 2.8. -/
theorem test_beq_taken : regPc 1 (at0 0x100 0x10220003 7 7) = some (7, 0x110) := by decide
theorem test_beq_not_taken : regPc 1 (at0 0x100 0x10220003 7 8) = some (7, 0x104) := by decide
theorem test_beq_wraps : regPc 1 (at0 0 0x1022FFFE 7 7) = some (7, 0xFFFFFFFC) := by decide
theorem test_j : regPc 1 (at0 0x3FFFC 0x08000010 7 7) = some (7, 0x40) := by decide
theorem test_j_far : regPc 1 (at0 0x100 0x0BFFFFFF 7 7) = some (7, 0x0FFFFFFC) := by decide

/-! ## Halts and their priority (2.9), and the unspecified outcome (2.7) -/

theorem test_halt_pc_misaligned : step (State.reset.setPc 5) = .fault (.halt .pcMisaligned) := rfl
theorem test_halt_alignment_first : step (State.reset.setPc 0x40002) = .fault (.halt .pcMisaligned) := rfl
theorem test_halt_pc_out_of_range : step (State.reset.setPc 0x40000) = .fault (.halt .pcOutOfRange) := rfl
theorem test_halt_zero_word : invoke State.reset = .halted .illegalInstruction State.reset := by decide
theorem test_halt_lw : step (at0 0 0x8C220001 0 0x77) = .fault (.halt .dataMisaligned) := rfl
theorem test_halt_sw_beyond : step (at0 0 0xAC220001 0x40000 0) = .fault (.halt .dataMisaligned) := rfl
theorem test_unspecified_sw : step (at0 0 0xAC220000 0x40000 0) = .fault (.unspecified .dataAddressOutOfRange) := rfl
theorem test_unspecified_lw : step (at0 0 0x8C220000 0xFFFFFFFC 0) = .fault (.unspecified .dataAddressOutOfRange) := rfl
theorem test_halt_codes : [HaltCause.pcMisaligned, .pcOutOfRange, .illegalInstruction, .controlDecodeFault,
    .aluFunctFault, .dataMisaligned].map HaltCause.code = [1, 2, 3, 4, 5, 6] := by decide
/-- R117: a zero word at the expected address is the conventional end of a run; at another address it is a failure. -/
theorem test_ends_normally : State.reset.EndsNormally 0 := ⟨1, by decide⟩
theorem test_end_elsewhere_fails : (runFrom (at0 0x100 0x08000040 0 0) 9).2.endsNormally 0x100 = false ∧
    (invoke State.reset).endsNormally 4 = false ∧ (invoke (State.reset.setPc 5)).endsNormally 5 = false := by decide
/-- The placed word is the first instruction to run after reset. -/
theorem test_with_fetch_word : regPc 2 (State.reset.withFetchWord 32 0x20220007) = some (7, 4) := by decide

/-! ## Witnesses: a concrete state and operands for each statement with hypotheses -/

/-- EncodeDecodeKeepsReadBits, one word of each kind of ignored bits. -/
theorem witness_decoded : decode 0x00221FE0#32 = .ok (.add 3 1 2) ∧ decode 0x3FE21234#32 = .ok (.lui 2 0x1234) := by
  decide
/-- IgnoredBitsChangeNothing. -/
theorem witness_ignored_bits : clearIgnored 0x00221820#32 = clearIgnored 0x00221FE0#32 ∧
    clearIgnored 0x3FE21234#32 = clearIgnored 0x3C021234#32 := by decide
/-- SelectorFollowsItsTable, one ALUOp and funct for each clause. -/
theorem witness_selector : (6 : BitVec 3) ≠ 7 ∧ (0x27#6, 7#3) ∈ [(0x27#6, 7#3)] ∧
    (0x22#6) ∉ [0x04#6, 0x20#6, 0x21#6, 0x24#6, 0x25#6, 0x27#6, 0x2A#6, 0x2B#6] := by decide
/-- ControlVectorsAreConsistent, one opcode for each clause. -/
theorem witness_control : (0x2B#6) ∈ config.wholeOpcodes ∧ ((0x3F#6) ≠ config.opRType ∧ (0x3F#6) ∉ config.wholeOpcodes) ∧
    (∃ c, controlDecoder 0x23 = .ok c ∧ c.memToReg = true ∧ c.memRead = true) ∧
    ∃ c, controlDecoder 0 = .ok c ∧ c.regDst = true ∧ c.aluOp = 7 := by
  exact ⟨by decide, by decide, ⟨_, rfl, rfl, rfl⟩, ⟨_, rfl, rfl, rfl⟩⟩
/-- MemoryAccessUnitByFlags, an address at the edge of each clause. -/
theorem witness_memory_access : Memory.wf [] ∧ (true || false) = true ∧ (0x3FFFD#32).toNat % 4 ≠ 0 ∧
    ((0x40000#32).toNat % 4 = 0 ∧ 0x40000 ≤ (0x40000#32).toNat) ∧ Accessible 0x3FFFC ∧ Accessible 0 := by
  refine ⟨by decide, by decide, by decide, by decide, ?_, ?_⟩ <;> exact ⟨by decide, by decide⟩
/-- PcUpdaterArithmetic, signals for each clause. -/
theorem witness_pc_updater : (true && false) = false ∧ (true && true) = true ∧ (true = true) := by decide
/-- SignExtenderKeepsSignedValue, a bit index for each clause. -/
theorem witness_sign_extender : 15 < 16 ∧ 16 ≤ 16 ∧ 31 < 32 := by decide
/-- AluComputesEachCode, the bit index of the last clause. -/
theorem witness_alu_bit : 31 < 32 := by decide

/-- lw at its largest address, 0x3FFFC, at pc 0x100: StepRunsTheDecodedInstruction, and CycleCompletesExactlyWhen. -/
theorem witness_runs_lw : Runs (at0 0x100 0x8C22FFFC 0x40000 0) (.lw 2 1 0xFFFC) := by
  exact ⟨by decide, by decide, by decide⟩
/-- StepRunsTheDecodedInstruction at the last word of memory. -/
theorem witness_runs_last_word : Runs (at0 0x3FFFC 0x10000000 0 0) (.beq 0 0 0) := by
  exact ⟨by decide, by decide, by decide⟩
/-- DefensiveHaltsAreUnreachable. -/
theorem witness_legal : legal 0x00221FE0#32 = true := by decide
/-- StepKeepsInvariant, OutOfRangePcHaltsTheNextCycle: the cycle of P4 that leaves the memory. -/
theorem witness_leaves_memory : (at0 0x3FFFC 0x10000000 0 0).Inv ∧
    ∃ t, step (at0 0x3FFFC 0x10000000 0 0) = .next t ∧ 0x40000 ≤ t.pc.toNat := by
  exact ⟨⟨by decide, by decide⟩, _, rfl, by decide⟩
/-- AlignedLaunchNeverHaltsPcMisaligned, a state one cycle after the launch. -/
theorem witness_reaches : (at0 0x3FFFC 0x10000000 0 0).PcAligned ∧
    ∃ t, Reaches (at0 0x3FFFC 0x10000000 0 0) t ∧ t.pc = 0x40000 := by
  exact ⟨by decide, _, .tail (.refl _) rfl, by decide⟩
/-- HaltedRunStaysWhereItHalted, a run of one completed cycle that halts in its second. -/
theorem witness_halted_run : ∃ u, runFrom (at0 0x3FFFC 0x10000000 0 0) 5 = (1, .halted .pcOutOfRange u) := by
  exact ⟨_, rfl⟩
/-- LoadedWordRunsNext. -/
theorem witness_loaded_word : State.reset.mem.wf ∧ decode (BitVec.ofNat 32 0xAC220000) = .ok (.sw 2 1 0) := by decide
/-- CycleReadsOnlyTwoRegisters: two states that differ in register 9, at a word whose fields name 1 and 2. -/
theorem witness_two_registers : (at0 0x100 0x00221820 5 7).pc = ((at0 0x100 0x00221820 5 7).setReg 9 1).pc ∧
    (at0 0x100 0x00221820 5 7).mem = ((at0 0x100 0x00221820 5 7).setReg 9 1).mem ∧
    (partition ((at0 0x100 0x00221820 5 7).mem.word 0x40)).rs = 1 ∧
    (partition ((at0 0x100 0x00221820 5 7).mem.word 0x40)).rt = 2 ∧
    (at0 0x100 0x00221820 5 7).reg 1 = ((at0 0x100 0x00221820 5 7).setReg 9 1).reg 1 ∧
    (at0 0x100 0x00221820 5 7).reg 2 = ((at0 0x100 0x00221820 5 7).setReg 9 1).reg 2 ∧
    at0 0x100 0x00221820 5 7 ≠ (at0 0x100 0x00221820 5 7).setReg 9 1 := by decide
/-- The encoding clauses of the six register-type statements. -/
theorem witness_rtype_words : [0x20#32, 0x21#32, 0x24#32, 0x25#32, 0x2A#32, 0x2B#32].map
    (fun k => (0x00221FC0#32 ||| k) &&& 0xFC00003F#32) = [0x20#32, 0x21#32, 0x24#32, 0x25#32, 0x2A#32, 0x2B#32] := by decide
/-- The encoding clauses of the eight other statements. -/
theorem witness_opcode_words : [0x20220007#32, 0x2822FFFF#32, 0x2C22FFFF#32, 0x3FE21234#32, 0x8C220008#32, 0xAC220000#32,
    0x10220003#32, 0x08000040#32].map (fun w => (partition w).opcode) = [config.opAddi, config.opSlti, config.opSltiu,
    config.opLui, config.opLw, config.opSw, config.opBeq, config.opJ] := by decide
/-- LwLoadsTheWord, SwStoresTheWord: the first and the last address of the memory. -/
theorem witness_accessible : ∃ s : State, s.mem.wf ∧
    (0x3FFFC#32 = BitVec.ofInt 32 ((s.reg 1).toNat + (0xFFFC#16).toInt) ∧ Accessible 0x3FFFC#32) ∧
    (0#32 = BitVec.ofInt 32 ((s.reg 2).toNat + (0x4#16).toInt) ∧ Accessible 0#32) := by
  exact ⟨at0 0x100 0xAC22FFFC 0x40000 0xFFFFFFFC, by decide, ⟨by decide, by decide, by decide⟩,
    ⟨by decide, by decide, by decide⟩⟩
/-- MisalignedAccessHalts. -/
theorem witness_misaligned : (((at0 0 0xAC220002 0x100 0).reg 1).toNat + (2#16).toInt) % 4 ≠ 0 := by decide
/-- AlignedAccessBeyondMemoryIsUnspecified, at the first address beyond. -/
theorem witness_beyond : 0x40000#32 = BitVec.ofInt 32 (((at0 0 0xAC220000 0x40000 0).reg 1).toNat + (0#16).toInt) ∧
    (0x40000#32).toNat % 4 = 0 ∧ 0x40000 ≤ (0x40000#32).toNat := by decide
/-- StoreThenLoadReturnsTheValue, with a register written between the two. -/
theorem witness_store_then_load : (at0 0x100 0xAC220000 8 99).mem.wf ∧ ∃ t u, exec (.sw 2 1 0) (at0 0x100 0xAC220000 8 99) = .next t ∧
    u = t.setReg 7 1 ∧ u.reg 1 = (at0 0x100 0xAC220000 8 99).reg 1 ∧ u.mem.word 2 = t.mem.word 2 ∧
    (effectiveAddress (at0 0x100 0xAC220000 8 99) 1 0).toNat / 4 = 2 := by
  exact ⟨by decide, _, _, rfl, rfl, by decide, rfl, by decide⟩
/-- StoreToTheNextWordIsFetched, storing a legal word and an illegal one. -/
theorem witness_store_next_word :
    (Runs (at0 0x100 0xAC220000 0x104 0x20420001) (.sw 2 1 0) ∧ (at0 0x100 0xAC220000 0x104 0x20420001).mem.wf ∧
      effectiveAddress (at0 0x100 0xAC220000 0x104 0x20420001) 1 0 = 0x100 + 4 ∧
      (∃ t, step (at0 0x100 0xAC220000 0x104 0x20420001) = .next t) ∧ decode 0x20420001#32 = .ok (.addi 2 2 1)) ∧
    (Runs (at0 0x100 0xAC220000 0x104 0) (.sw 2 1 0) ∧ (∃ t, step (at0 0x100 0xAC220000 0x104 0) = .next t) ∧
      legal ((at0 0x100 0xAC220000 0x104 0).reg 2) = false) := by
  exact ⟨⟨⟨by decide, by decide, by decide⟩, by decide, by decide, ⟨_, rfl⟩, by decide⟩,
    ⟨by decide, by decide, by decide⟩, ⟨_, rfl⟩, by decide⟩
/-- JumpReplacesTheLow28Bits, the largest pc of its last clause. -/
theorem witness_jump_pc : (at0 0x3FFFC 0x08000010 7 7).pc.toNat ≤ 0x3FFFC := by decide
/-- BranchOrJumpToItselfLoopsForever, a branch and a jump. -/
theorem witness_loops : Runs (at0 0x100 0x1021FFFF 7 0) (.beq 1 1 0xFFFF) ∧
    (Runs (at0 0x100 0x08000040 0 0) (.j 0x40) ∧ (at0 0x100 0x08000040 0 0).pc.toNat = (0x40#26).toNat * 4) := by
  exact ⟨⟨by decide, by decide, by decide⟩, ⟨by decide, by decide, by decide⟩, by decide⟩
/-- AssembledTransfersReachTheirAddress, the furthest label back and the furthest jump. -/
theorem witness_assembled : (Asm.j 0x0FFFFFFC).wf (State.reset.setPc 0x100).pc = true ∧
    (Asm.beqTo 3 3 0x4).wf (State.reset.setPc 0x20000).pc = true := by decide
/-- OnlyTheDestinationRegisterChanges: a completed instruction and another register, and a halted cycle. -/
theorem witness_destination : (∃ t, exec (.lw 2 1 0xFFFC) (at0 0x100 0x8C22FFFC 0x40000 0) = .next t) ∧
    (Instr.lw 2 1 0xFFFC).dest ≠ some 1 ∧ ∃ t, invoke State.reset = .halted .illegalInstruction t := by
  exact ⟨⟨_, rfl⟩, by decide, ⟨_, rfl⟩⟩
/-- OnlySwWritesMemory, NextPcOfEveryInstruction: a sw and an instruction that is no sw complete. -/
theorem witness_memory_writers : (∃ t, exec (.sw 2 1 0) (at0 0x100 0xAC220000 8 99) = .next t) ∧
    (∃ t, exec (.add 3 1 2) (at0 0x100 0x00221820 5 7) = .next t) ∧ ∀ rt rs imm, Instr.add 3 1 2 ≠ .sw rt rs imm := by
  exact ⟨⟨_, rfl⟩, ⟨_, rfl⟩, fun _ _ _ h => nomatch h⟩
/-- NormalEndIsTheIllegalWordAtItsAddress: a run of one completed cycle that ends at 0x10C, and so not at 0x104, and one
that halts there with another cause. -/
theorem witness_normal_end : (at0 0x100 0x10000002 0 0).EndsNormally 0x10C ∧
    (∃ u, runFrom (at0 0x100 0x10000002 0 0) 5 = (1, .halted .illegalInstruction u) ∧ u.pc ≠ 0x104) ∧
    ∃ u, runFrom (at0 0x3FFFC 0x10000000 0 0) 5 = (1, .halted .pcOutOfRange u) ∧
      HaltCause.pcOutOfRange ≠ .illegalInstruction := by
  exact ⟨⟨2, by decide⟩, ⟨_, rfl, by decide⟩, _, rfl, by decide⟩

end Sys2Proof.Tests
end

section
/-! PROOFS. The family of spec/10_state.md: what a completed cycle does to the registers, the pc and the memory, the
invariant it keeps, and the registers it reads. -/

namespace Sys2Proof.Machine

/-! ## The next pc -/

/-- The address after an instruction, as a number (R16). -/
theorem pc_add_four_toNat (pc : Word) : (pc + 4).toNat = (pc.toNat + 4) % 2 ^ 32 := BitVec.toNat_add pc 4

/-- The branch target as a number, modulo 2^32 (R73). -/
theorem branchTarget_toNat (pc : Word) (imm : BitVec 16) :
    (branchTarget pc imm).toNat = (pc.toNat + 4 + (signExtend imm).toNat * 4) % 2 ^ 32 := by
  rw [branchTarget, branchOffset_eq, BitVec.toNat_add, pc_add_four_toNat, BitVec.toNat_mul, ← Nat.add_mod]
  rfl

theorem pc_add_four_aligned {pc : Word} (h : pc.toNat % 4 = 0) : (pc + 4).toNat % 4 = 0 := by
  rw [pc_add_four_toNat]
  omega

theorem branchTarget_aligned {pc : Word} (h : pc.toNat % 4 = 0) (imm : BitVec 16) :
    (branchTarget pc imm).toNat % 4 = 0 := by
  rw [branchTarget_toNat]
  omega

/-- A jump address ends in two zero bits, whatever the pc (R104). -/
theorem jumpAddress_aligned (pc : Word) (target : BitVec 26) : (jumpAddress pc target).toNat % 4 = 0 := by
  rw [jumpAddress, jump_toNat]
  omega

/-! ## What a completed instruction changes -/

/-- An instruction with a destination, when it completes, writes that register and advances the pc. -/
theorem exec_next_of_dest {i : Instr} {s t : State} {d : Reg} (hd : i.dest = some d) (h : exec i s = .next t) :
    ∃ v, t = (s.setReg d v).advance := by
  cases i with
  | lw rt rs imm =>
    cases hd
    rw [exec_lw] at h
    split at h
    · cases h
    · exact ⟨_, (Host.Outcome.next.inj h).symm⟩
  | sw | beq | j => cases hd
  | add | sub | and | or | slt | sltu | addi | slti | sltiu | lui =>
    cases hd
    exact ⟨_, (Host.Outcome.next.inj h).symm⟩

/-- A store that completes replaces the memory by what the write answers and advances the pc (R98). -/
theorem exec_sw_next {rt rs : Reg} {imm : BitVec 16} {s t : State} (h : exec (.sw rt rs imm) s = .next t) :
    ∃ m, memWrite s.mem (effectiveAddress s rs imm) (s.reg rt) = .ok m ∧ t = (s.setMem m).advance := by
  rw [exec_sw] at h
  split at h
  · cases h
  · exact ⟨_, ‹_›, (Host.Outcome.next.inj h).symm⟩

/-- An instruction with no destination writes no register. -/
theorem exec_regs_of_no_dest {i : Instr} {s t : State} (hd : i.dest = none) (h : exec i s = .next t) :
    SameRegs s t := by
  cases i with
  | sw rt rs imm =>
    obtain ⟨m, -, rfl⟩ := exec_sw_next h
    exact fun _ => rfl
  | beq rs rt imm =>
    rw [exec_beq] at h
    cases h
    exact fun _ => rfl
  | j target =>
    rw [exec_j] at h
    cases h
    exact fun _ => rfl
  | add | sub | and | or | slt | sltu | addi | slti | sltiu | lui | lw => cases hd

/-- The register frame of every instruction (R14). -/
theorem exec_reg_of_ne_dest {i : Instr} {s t : State} (h : exec i s = .next t) {r : Reg} (hr : i.dest ≠ some r) :
    t.reg r = s.reg r := by
  cases hd : i.dest with
  | none => exact exec_regs_of_no_dest hd h r
  | some d =>
    obtain ⟨v, rfl⟩ := exec_next_of_dest hd h
    have hne : r ≠ d := fun e => hr (by rw [hd, e])
    rw [State.advance_reg, State.setReg_reg_ne s v hne]

/-- An instruction with a destination advances the pc. -/
theorem exec_pc_of_dest {i : Instr} {s t : State} {d : Reg} (hd : i.dest = some d) (h : exec i s = .next t) :
    t.pc.toNat = (s.pc.toNat + 4) % 2 ^ 32 := by
  obtain ⟨v, rfl⟩ := exec_next_of_dest hd h
  exact pc_add_four_toNat s.pc

/-- The memory after an instruction that is no store is the one before it (R22). -/
theorem exec_mem_of_ne_sw {i : Instr} {s t : State} (h : exec i s = .next t) (hi : ∀ rt rs imm, i ≠ .sw rt rs imm) :
    t.mem = s.mem := by
  rcases exec_next_cases h with ⟨d, v, rfl⟩ | ⟨rt, rs, imm, m, rfl, -, -⟩ | ⟨p, rfl, -⟩
  · rfl
  · exact absurd rfl (hi rt rs imm)
  · rfl

/-- A write changes no byte outside the four at its address (R28). -/
theorem memWrite_readByte_outside {m m' : Memory} {ea v : Word} (h : memWrite m ea v = .ok m') {a : Nat}
    (ha : a < ea.toNat ∨ ea.toNat + 4 ≤ a) : m'.readByte a = m.readByte a := by
  obtain ⟨h4, -, rfl⟩ := memWrite_ok h
  exact Memory.readByte_setWord_outside m v (by omega)

/-! ## The invariant -/

theorem exec_keeps_pcAligned {i : Instr} {s t : State} (hs : s.PcAligned) (h : exec i s = .next t) : t.PcAligned := by
  rcases exec_next_cases h with ⟨d, v, rfl⟩ | ⟨rt, rs, imm, m, -, -, rfl⟩ |
    ⟨p, rfl, rfl | ⟨imm, rfl⟩ | ⟨a, rfl⟩⟩
  · exact pc_add_four_aligned hs
  · exact pc_add_four_aligned hs
  · exact pc_add_four_aligned hs
  · exact branchTarget_aligned hs imm
  · exact jumpAddress_aligned s.pc a

theorem exec_keeps_memWf {i : Instr} {s t : State} (hs : s.mem.wf) (h : exec i s = .next t) : t.mem.wf := by
  rcases exec_next_cases h with ⟨d, v, rfl⟩ | ⟨rt, rs, imm, m, -, hm, rfl⟩ | ⟨p, rfl, -⟩
  · exact hs
  · exact memWrite_wf hs hm
  · exact hs

/-- A cycle that completes leaves an aligned pc: its fetch found one, and every instruction keeps it so. -/
theorem step_next_pcAligned {s t : State} (h : step s = .next t) : t.PcAligned := by
  obtain ⟨i, ⟨hpc, -, -⟩, hi⟩ := step_next h
  exact exec_keeps_pcAligned hpc hi

theorem step_keeps_memWf {s t : State} (hs : s.mem.wf) (h : step s = .next t) : t.mem.wf := by
  obtain ⟨i, -, hi⟩ := step_next h
  exact exec_keeps_memWf hs hi

theorem reaches_pcAligned {s t : State} (hs : s.PcAligned) (h : Reaches s t) : t.PcAligned :=
  h.invariant (P := State.PcAligned) (fun _ _ _ e => step_next_pcAligned e) hs

/-! ## The two halts on the pc -/

/-- At an aligned pc beyond the memory the cycle halts with PcOutOfRange (R17). -/
theorem step_pcOutOfRange {s : State} (h : s.PcAligned) (h' : 0x40000 ≤ s.pc.toNat) :
    step s = .fault (.halt .pcOutOfRange) := by
  rcases step_cases s with ⟨hm, -⟩ | ⟨-, -, e⟩ | ⟨-, hin, -⟩ | ⟨i, ⟨-, hin, -⟩, -⟩
  · exact absurd h hm
  · exact e
  · omega
  · omega

/-- An executed instruction stops for a reason of its data access, never of the pc (R113). -/
theorem exec_ne_pcMisaligned (i : Instr) (s : State) : exec i s ≠ .fault (.halt .pcMisaligned) := by
  intro h
  obtain ⟨a, -, e⟩ := (exec_fault_iff i s _).1 h
  rcases checkDataAddress_error e with ⟨hf, -⟩ | ⟨hf, -⟩ <;> cases hf

theorem step_ne_pcMisaligned {s : State} (h : s.PcAligned) : step s ≠ .fault (.halt .pcMisaligned) := by
  rcases step_cases s with ⟨hm, -⟩ | ⟨-, -, e⟩ | ⟨-, -, -, e⟩ | ⟨i, -, -, e⟩
  · exact absurd h hm
  · simp [e]
  · simp [e]
  · rw [e]
    exact exec_ne_pcMisaligned i s

end Sys2Proof.Machine

/-! ## The registers an instruction reads -/

namespace Sys2Proof

/-- The registers whose values an instruction uses (R62, R80, R90, R96, R101): lui and j use none. -/
def Instr.sources : Instr → List Reg
  | .add _ rs rt | .sub _ rs rt | .and _ rs rt | .or _ rs rt | .slt _ rs rt | .sltu _ rs rt => [rs, rt]
  | .addi _ rs _ | .slti _ rs _ | .sltiu _ rs _ | .lw _ rs _ => [rs]
  | .sw rt rs _ | .beq rs rt _ => [rs, rt]
  | .lui _ _ | .j _ => []

/-- A decoded instruction uses only registers its word's rs and rt fields name: every row of the decoder's table puts no
other field in a source operand. -/
theorem decode_sources_subset {w : Word} {i : Instr} (h : decode w = .ok i) :
    i.sources ⊆ [(partition w).rs, (partition w).rt] := by
  simp only [decode, decodeRType] at h
  split_ifs at h <;> cases h <;> simp [Instr.sources]

end Sys2Proof

namespace Sys2Proof.Machine

/-- Two outcomes, of a cycle from `s` and of one from `s'`, with the same effect: the same stop, or the same update
made to each state. -/
inductive SameEffect (s s' : State) : Host.Outcome State Fault Refusal → Host.Outcome State Fault Refusal → Prop where
  | stop (f : Fault) : SameEffect s s' (.fault f) (.fault f)
  | writeReg (d : Reg) (v : Word) : SameEffect s s' (.next (s.setReg d v).advance) (.next (s'.setReg d v).advance)
  | store (m : Memory) : SameEffect s s' (.next (s.setMem m).advance) (.next (s'.setMem m).advance)
  | setPc (p : Word) : SameEffect s s' (.next (s.setPc p)) (.next (s'.setPc p))

theorem SameEffect.of_fault {s s' : State} {f : Fault} {o : Host.Outcome State Fault Refusal}
    (h : SameEffect s s' (.fault f) o) : o = .fault f := by
  cases h
  rfl

/-- The same effect on two states that agree on pc and memory: they agree on both afterwards, and each register is
written with one value in both or kept in each. -/
theorem SameEffect.of_next {s s' t : State} {o : Host.Outcome State Fault Refusal} (h : SameEffect s s' (.next t) o)
    (hpc : s.pc = s'.pc) (hmem : s.mem = s'.mem) :
    ∃ t', o = .next t' ∧ t'.pc = t.pc ∧ t'.mem = t.mem ∧
      ∀ r, t.reg r = t'.reg r ∨ (t.reg r = s.reg r ∧ t'.reg r = s'.reg r) := by
  cases h with
  | writeReg d v =>
    refine ⟨_, rfl, by simp [hpc], by simp [hmem], fun r => ?_⟩
    by_cases hr : r = d
    · left; simp [hr]
    · right; simp [State.setReg_reg_ne _ v hr]
  | store m => exact ⟨_, rfl, by simp [hpc], rfl, fun r => .inr ⟨rfl, rfl⟩⟩
  | setPc p => exact ⟨_, rfl, rfl, by simp [hmem], fun r => .inr ⟨rfl, rfl⟩⟩

theorem execRType_sameEffect (op : AluOp) (rd : Reg) {rs rt : Reg} {s s' : State} (hrs : s.reg rs = s'.reg rs)
    (hrt : s.reg rt = s'.reg rt) : SameEffect s s' (execRType op rd rs rt s) (execRType op rd rs rt s') := by
  rw [execRType, execRType, hrs, hrt]
  exact .writeReg rd _

theorem execImmediate_sameEffect (op : AluOp) (rt : Reg) {a a' : Word} (imm : BitVec 16) (s s' : State) (ha : a = a') :
    SameEffect s s' (execImmediate op rt a imm s) (execImmediate op rt a' imm s') := by
  rw [ha]
  exact .writeReg rt _

/-- An instruction has the same effect on two states that agree on pc, memory and the registers it uses. -/
theorem exec_sameEffect {i : Instr} {s s' : State} (hpc : s.pc = s'.pc) (hmem : s.mem = s'.mem)
    (hsrc : ∀ r ∈ i.sources, s.reg r = s'.reg r) : SameEffect s s' (exec i s) (exec i s') := by
  cases i with
  | add rd rs rt | sub rd rs rt | and rd rs rt | or rd rs rt | slt rd rs rt | sltu rd rs rt =>
    exact execRType_sameEffect _ rd (hsrc rs (by simp [Instr.sources])) (hsrc rt (by simp [Instr.sources]))
  | addi rt rs imm | slti rt rs imm | sltiu rt rs imm =>
    exact execImmediate_sameEffect _ rt imm s s' (hsrc rs (by simp [Instr.sources]))
  | lui rt imm => exact execImmediate_sameEffect _ rt imm s s' rfl
  | lw rt rs imm =>
    rw [exec_lw, exec_lw, effectiveAddress, effectiveAddress, hsrc rs (by simp [Instr.sources]), hmem]
    cases memRead s'.mem (s'.reg rs + signExtend imm) with
    | error f => exact .stop f
    | ok v => exact .writeReg rt v
  | sw rt rs imm =>
    rw [exec_sw, exec_sw, effectiveAddress, effectiveAddress, hsrc rs (by simp [Instr.sources]),
      hsrc rt (by simp [Instr.sources]), hmem]
    cases memWrite s'.mem (s'.reg rs + signExtend imm) (s'.reg rt) with
    | error f => exact .stop f
    | ok m => exact .store m
  | beq rs rt imm =>
    rw [exec_beq, exec_beq, hsrc rs (by simp [Instr.sources]), hsrc rt (by simp [Instr.sources]), hpc]
    exact .setPc _
  | j target =>
    rw [exec_j, exec_j, hpc]
    exact .setPc _

/-- Two states that agree on pc and memory fetch alike, so a cycle has the same effect on both when the instruction
fetched has. -/
theorem step_sameEffect {s s' : State} (hpc : s.pc = s'.pc) (hmem : s.mem = s'.mem)
    (hexec : ∀ i, Runs s i → SameEffect s s' (exec i s) (exec i s')) : SameEffect s s' (step s) (step s') := by
  rw [step, step, ← hpc, ← hmem]
  rcases fetch_cases s.pc s.mem with ⟨-, e⟩ | ⟨-, -, e⟩ | ⟨-, -, -, e⟩ | ⟨h4, hin, -, e⟩ <;> rw [e]
  · exact .stop _
  · exact .stop _
  · exact .stop _
  · cases hd : decode (s.mem.word (s.pc.toNat / 4)) with
    | error x => simpa only [hd] using .stop _
    | ok i => simpa only [hd] using hexec i ⟨h4, hin, hd⟩

/-! ## The statements -/

/-- Settles O22: only a store changes the memory, and a write keeps the canonical form; the pc stays aligned. -/
theorem stepKeepsInvariant : Obligations.StepKeepsInvariant := by
  intro s t ⟨hmem, _⟩ h
  exact ⟨step_keeps_memWf hmem h, step_next_pcAligned h⟩

/-- Settles O24: alignment is an invariant of runs, and an aligned pc passes the Fetcher's first test. -/
theorem alignedLaunchNeverHaltsPcMisaligned : Obligations.AlignedLaunchNeverHaltsPcMisaligned := by
  intro s t hs h
  have ht := reaches_pcAligned hs h
  exact ⟨ht, step_ne_pcMisaligned ht⟩

/-- Settles O25: the pc a completed cycle computes is aligned, so only the range test can fail. -/
theorem outOfRangePcHaltsTheNextCycle : Obligations.OutOfRangePcHaltsTheNextCycle := by
  intro s t h hpc
  have hstep := step_pcOutOfRange (step_next_pcAligned h) hpc
  exact ⟨hstep, (invoke_halted_iff t t _).2 ⟨hstep, rfl⟩⟩

/-- Settles O49: the register frame of `exec`, and a halted invocation gives its own state back. -/
theorem onlyTheDestinationRegisterChanges : Obligations.OnlyTheDestinationRegisterChanges := by
  refine ⟨fun i s t h r hr => exec_reg_of_ne_dest h hr, fun s t c h => ?_⟩
  obtain ⟨-, rfl⟩ := (invoke_halted_iff s t c).1 h
  exact fun _ => rfl

/-- Settles O50, by the memory frames of `exec` and of a write. -/
theorem onlySwWritesMemory : Obligations.OnlySwWritesMemory := by
  intro i s t h
  constructor
  · intro hi a
    rw [exec_mem_of_ne_sw h hi]
  · rintro rt rs imm rfl a ha
    obtain ⟨m, hm, rfl⟩ := exec_sw_next h
    exact memWrite_readByte_outside hm ha

/-- Settles O51: the two transfers by their targets; the store and every register-writing instruction advance. -/
theorem nextPcOfEveryInstruction : Obligations.NextPcOfEveryInstruction := by
  intro i s t h
  cases i with
  | beq rs rt imm =>
    rw [exec_beq] at h
    cases h
    dsimp only [State.setPc_pc]
    split
    · exact branchTarget_toNat s.pc imm
    · exact pc_add_four_toNat s.pc
  | j target =>
    rw [exec_j] at h
    cases h
    exact jump_toNat (s.pc + 4) target
  | sw rt rs imm =>
    obtain ⟨m, -, rfl⟩ := exec_sw_next h
    exact pc_add_four_toNat s.pc
  | add | sub | and | or | slt | sltu | addi | slti | sltiu | lui | lw => exact exec_pc_of_dest rfl h

/-- Settles O52: the fetched instruction uses only the registers its rs and rt fields name, so the cycle has the same
effect on both states. -/
theorem cycleReadsOnlyTwoRegisters : Obligations.CycleReadsOnlyTwoRegisters := by
  intro s s' hpc hmem hrs hrt
  have heffect : SameEffect s s' (step s) (step s') := by
    refine step_sameEffect hpc hmem fun i ⟨_, _, hd⟩ => exec_sameEffect hpc hmem fun r hr => ?_
    rcases List.mem_pair.1 (decode_sources_subset hd hr) with rfl | rfl
    · exact hrs
    · exact hrt
  constructor
  · intro f h
    exact (h ▸ heffect).of_fault
  · intro t h
    exact (h ▸ heffect).of_next hpc hmem

/-- Settles O23: no cell is listed, and the pc is 0. -/
theorem resetHasInvariant : Obligations.ResetHasInvariant := ⟨Memory.wf_nil, by decide⟩

/-- Settles O48, by the read of a register after a write, twice. -/
theorem registerZeroIsOrdinary : Obligations.RegisterZeroIsOrdinary := by
  refine ⟨fun s d r v => State.setReg_reg s d r v, fun rs rt rd rt' s => ?_⟩
  refine ⟨_, _, exec_add 0 rs rt s, ?_, exec_add rd 0 rt' _, ?_⟩
  · rw [State.advance_reg, State.setReg_reg_self]
  · simp only [State.advance_reg, State.setReg_reg_self]

end Sys2Proof.Machine
end

section
/-! PROOFS. The family of spec/20_memory.md: where a load or a store stops, and that a store is seen by the next fetch. -/

namespace Sys2Proof.Machine

/-! ## The effective address -/

/-- The effective address is the integer sum of base and signed immediate, modulo 2^32 (R96). -/
theorem effectiveAddress_eq_ofInt (s : State) (rs : Reg) (imm : BitVec 16) :
    effectiveAddress s rs imm = BitVec.ofInt 32 ((s.reg rs).toNat + imm.toInt) := add_signExtend (s.reg rs) imm

/-- The wrap modulo 2^32 keeps the alignment of the sum: 4 divides 2^32. -/
theorem effectiveAddress_mod_four (s : State) (rs : Reg) (imm : BitVec 16) :
    ((effectiveAddress s rs imm).toNat : Int) % 4 = ((s.reg rs).toNat + imm.toInt) % 4 := by
  rw [effectiveAddress_eq_ofInt, BitVec.toNat_ofInt]
  omega

/-! ## Where a load or a store stops -/

/-- A load and a store stop alike, with the reason the checks of their address give. -/
theorem exec_lw_sw_fault {s : State} {rs : Reg} {imm : BitVec 16} {f : Fault}
    (h : checkDataAddress (effectiveAddress s rs imm) = .error f) (rt : Reg) :
    exec (.lw rt rs imm) s = .fault f ∧ exec (.sw rt rs imm) s = .fault f :=
  ⟨(exec_fault_iff _ s f).2 ⟨_, rfl, h⟩, (exec_fault_iff _ s f).2 ⟨_, rfl, h⟩⟩

theorem checkDataAddress_unspecified_iff (a : Word) :
    checkDataAddress a = .error (.unspecified .dataAddressOutOfRange) ↔ a.toNat % 4 = 0 ∧ 0x40000 ≤ a.toNat := by
  refine ⟨fun h => ?_, fun ⟨h4, hout⟩ => checkDataAddress_beyond h4 hout⟩
  rcases checkDataAddress_error h with ⟨hf, -⟩ | ⟨-, h4, hout⟩
  · cases hf
  · exact ⟨h4, hout⟩

/-! ## The cycle, by what it fetches -/

/-- A cycle that fetches an instruction is the instruction. -/
theorem step_of_runs {s : State} {i : Instr} (h : Runs s i) : step s = exec i s := by
  obtain ⟨h4, hin, hd⟩ := h
  rcases step_cases s with ⟨hm, -⟩ | ⟨-, hout, -⟩ | ⟨-, -, hl, -⟩ | ⟨k, hk, -, e⟩
  · exact absurd h4 hm
  · omega
  · obtain ⟨x, hx⟩ := (decode_error_iff_not_legal _).2 hl
    cases hx.symm.trans hd
  · rw [e, hk.unique ⟨h4, hin, hd⟩]

/-- A cycle that fetches an illegal word halts (R29, R48). -/
theorem step_of_illegal {s : State} (h : Accessible s.pc) (hl : legal (s.mem.word (s.pc.toNat / 4)) = false) :
    step s = .fault (.halt .illegalInstruction) := by
  obtain ⟨h4, hin⟩ := h
  rcases step_cases s with ⟨hm, -⟩ | ⟨-, hout, -⟩ | ⟨-, -, -, e⟩ | ⟨i, -, hl', -⟩
  · exact absurd h4 hm
  · omega
  · exact e
  · simp [hl] at hl'

/-- An unspecified cycle has fetched an instruction, whose data access is the reason: the fetch only halts. -/
theorem step_unspecified_iff (s : State) (r : UnspecifiedReason) :
    step s = .fault (.unspecified r) ↔
      ∃ i a, Runs s i ∧ i.dataAddress s = some a ∧ checkDataAddress a = .error (.unspecified r) := by
  constructor
  · intro h
    rcases step_cases s with ⟨-, e⟩ | ⟨-, -, e⟩ | ⟨-, -, -, e⟩ | ⟨i, hr, -, e⟩ <;> rw [e] at h
    · cases h
    · cases h
    · cases h
    · obtain ⟨a, ha, hc⟩ := (exec_fault_iff i s _).1 h
      exact ⟨i, a, hr, ha, hc⟩
  · rintro ⟨i, a, hr, ha, hc⟩
    rw [step_of_runs hr]
    exact (exec_fault_iff i s _).2 ⟨a, ha, hc⟩

/-! ## The word a store leaves -/

/-- A write that answers was at an accessible address, and the word there is now the one written (R28). -/
theorem memWrite_word_self {m m' : Memory} {a v : Word} (hm : m.wf) (h : memWrite m a v = .ok m') :
    Accessible a ∧ m'.word (a.toNat / 4) = v := by
  obtain ⟨h4, hi, rfl⟩ := memWrite_ok h
  refine ⟨⟨h4, ?_⟩, Memory.word_setWord_self hm hi v⟩
  simp only [config_memWords] at hi
  omega

/-- After a store to the word that follows it, the next fetch is at an accessible pc and finds the stored word. -/
theorem sw_next_word_fetched {rt rs : Reg} {imm : BitVec 16} {s t : State} (hm : s.mem.wf)
    (h : exec (.sw rt rs imm) s = .next t) (hea : effectiveAddress s rs imm = s.pc + 4) :
    Accessible t.pc ∧ t.mem.word (t.pc.toNat / 4) = s.reg rt := by
  obtain ⟨m, hw, rfl⟩ := exec_sw_next h
  rw [hea] at hw
  exact memWrite_word_self hm hw

/-! ## The statements -/

/-- Settles O19: only a data access is unspecified, and its checks say at which addresses. -/
theorem unspecifiedOnlyBeyondTheMemory : Obligations.UnspecifiedOnlyBeyondTheMemory := by
  intro s
  simp only [step_unspecified_iff, checkDataAddress_unspecified_iff]

/-- Settles O40: the address is aligned exactly when the sum is, and the alignment check comes first. -/
theorem misalignedAccessHalts : Obligations.MisalignedAccessHalts := by
  intro rt rs imm s h
  have hea : (effectiveAddress s rs imm).toNat % 4 ≠ 0 := by
    have := effectiveAddress_mod_four s rs imm
    omega
  exact exec_lw_sw_fault (checkDataAddress_misaligned hea) rt

/-- Settles O41, by the range check of the effective address. -/
theorem alignedAccessBeyondMemoryIsUnspecified : Obligations.AlignedAccessBeyondMemoryIsUnspecified := by
  intro rt rs imm s ea hea h4 hout
  rw [← effectiveAddress_eq_ofInt] at hea
  subst hea
  exact exec_lw_sw_fault (checkDataAddress_beyond h4 hout) rt

/-- Settles O43: the next cycle's fetch finds the stored word, and the cycle is what that word says. -/
theorem storeToTheNextWordIsFetched : Obligations.StoreToTheNextWordIsFetched := by
  intro rt rs imm s t hm hr h hea
  rw [step_of_runs hr] at h
  obtain ⟨hpc, hword⟩ := sw_next_word_fetched hm h hea
  constructor
  · intro i hi
    exact step_of_runs ⟨hpc.1, hpc.2, by rw [hword, hi]⟩
  · intro hl
    exact step_of_illegal hpc (by rw [hword, hl])

end Sys2Proof.Machine
end

section
/-! PROOFS. The family of spec/30_encoding.md: a word is its fields put together, what clearing the ignored bits leaves,
the legal words as match-and-mask rows, and what assembled instructions do. -/

namespace Sys2Proof

/-! ## A word is its fields put together -/

/-- The first three fields of R42 and R43 are the upper half of the word. -/
theorem opcode_rs_rt_eq_upper (w : Word) :
    (partition w).opcode ++ bitsOfReg (partition w).rs ++ bitsOfReg (partition w).rt = w.extractLsb' 16 16 := by
  simp only [partition, bitsOfReg_regOfBits]
  rw [BitVec.extractLsb'_append_extractLsb'_eq_extractLsb' (start₂ := 26) (start₁ := 21) rfl]
  exact BitVec.extractLsb'_append_extractLsb'_eq_extractLsb' rfl

/-- The I-type fields cover the word (R43). -/
theorem iWord_partition (w : Word) :
    iWord (partition w).opcode (partition w).rs (partition w).rt (partition w).imm = w := by
  rw [iWord, opcode_rs_rt_eq_upper]
  exact BitVec.extractLsb'_append_extractLsb'

/-- The J-type fields cover the word (R44). -/
theorem jWord_partition (w : Word) : jWord (partition w).opcode (partition w).target = w :=
  BitVec.extractLsb'_append_extractLsb'

/-- A mask of ones, zeros and ones keeps the ends of a word. -/
theorem and_ones_zeros_ones {m n k : Nat} (w : BitVec (m + n + k)) :
    w &&& (BitVec.allOnes m ++ 0#n ++ BitVec.allOnes k) = w.extractLsb' (n + k) m ++ 0#n ++ w.extractLsb' 0 k := by
  have hw : w = w.extractLsb' (n + k) m ++ w.extractLsb' k n ++ w.extractLsb' 0 k := by
    rw [BitVec.extractLsb'_append_extractLsb'_eq_extractLsb' (Nat.add_comm n k), BitVec.extractLsb'_append_extractLsb']
  conv_lhs => rw [hw]
  simp only [BitVec.and_append, BitVec.and_allOnes, BitVec.and_zero]

/-- The R-type fields are an opcode-0 word with bits 10:6 cleared (R42, R49). -/
theorem rWord_partition {w : Word} (h : (partition w).opcode = config.opRType) :
    rWord (partition w).funct (partition w).rd (partition w).rs (partition w).rt = w &&& 0xFFFFF83F#32 := by
  have hmask : 0xFFFFF83F#32 = BitVec.allOnes 21 ++ 0#5 ++ BitVec.allOnes 6 := by decide
  have hhigh : w.extractLsb' 16 16 ++ w.extractLsb' 11 5 = w.extractLsb' 11 21 :=
    BitVec.extractLsb'_append_extractLsb'_eq_extractLsb' rfl
  rw [rWord, ← h, opcode_rs_rt_eq_upper, hmask]
  simp only [partition, bitsOfReg_regOfBits, hhigh]
  exact (and_ones_zeros_ones (m := 21) (n := 5) (k := 6) w).symm

/-- The I-type fields with 0 for rs are the word with bits 25:21 cleared (R49, R51). -/
theorem iWord_zero_partition (w : Word) :
    iWord (partition w).opcode 0 (partition w).rt (partition w).imm = w &&& 0xFC1FFFFF#32 := by
  have hmask : 0xFC1FFFFF#32 = BitVec.allOnes 6 ++ 0#5 ++ BitVec.allOnes 21 := by decide
  have hlow : w.extractLsb' 16 5 ++ w.extractLsb' 0 16 = w.extractLsb' 0 21 :=
    BitVec.extractLsb'_append_extractLsb'_eq_extractLsb' rfl
  rw [hmask]
  refine Eq.trans ?_ (and_ones_zeros_ones (m := 6) (n := 5) (k := 21) w).symm
  rw [← hlow]
  simp only [iWord, partition, bitsOfReg_regOfBits]
  exact BitVec.append_assoc

/-- The mask of an R-type row of R50 keeps opcode and funct. -/
theorem and_rTypeMask (w : Word) :
    w &&& 0xFC00003F#32 = (partition w).opcode ++ 0#20 ++ (partition w).funct := by
  have hmask : 0xFC00003F#32 = BitVec.allOnes 6 ++ 0#20 ++ BitVec.allOnes 6 := by decide
  rw [hmask]
  exact and_ones_zeros_ones (m := 6) (n := 20) (k := 6) w

/-- The mask of the other rows of R50 keeps the opcode. -/
theorem and_opcodeMask (w : Word) : w &&& 0xFC000000#32 = (partition w).opcode ++ 0#26 := by
  have hmask : 0xFC000000#32 = BitVec.allOnes 6 ++ 0#26 ++ BitVec.allOnes 0 := by decide
  rw [hmask]
  exact (and_ones_zeros_ones (m := 6) (n := 26) (k := 0) w).trans (BitVec.append_zero_width _ _)

/-! ## What clearing the ignored bits leaves -/

theorem clearIgnored_rType {w : Word} (h : (partition w).opcode = config.opRType) :
    clearIgnored w = rWord (partition w).funct (partition w).rd (partition w).rs (partition w).rt := by
  rw [rWord_partition h]
  exact if_pos h

theorem clearIgnored_lui {w : Word} (h : (partition w).opcode = config.opLui) :
    clearIgnored w = iWord config.opLui 0 (partition w).rt (partition w).imm := by
  rw [← h, iWord_zero_partition]
  simp [clearIgnored, h]

theorem clearIgnored_other {w : Word} (h : (partition w).opcode ≠ config.opRType)
    (h' : (partition w).opcode ≠ config.opLui) : clearIgnored w = w := by
  simp only [clearIgnored, h, h', if_false]

/-- What clearing leaves, by the opcode (R49). -/
theorem clearIgnored_cases (w : Word) :
    ((partition w).opcode = config.opRType ∧
        clearIgnored w = rWord (partition w).funct (partition w).rd (partition w).rs (partition w).rt) ∨
      ((partition w).opcode = config.opLui ∧
        clearIgnored w = iWord config.opLui 0 (partition w).rt (partition w).imm) ∨
      clearIgnored w = w := by
  by_cases hr : (partition w).opcode = config.opRType
  · exact .inl ⟨hr, clearIgnored_rType hr⟩
  · by_cases hl : (partition w).opcode = config.opLui
    · exact .inr (.inl ⟨hl, clearIgnored_lui hl⟩)
    · exact .inr (.inr (clearIgnored_other hr hl))

/-! ## Encoding what a word decodes to -/

theorem decode_lui {w : Word} (h : (partition w).opcode = config.opLui) :
    decode w = .ok (.lui (partition w).rt (partition w).imm) := by
  simp [decode, h]

/-- The encoder puts a decoded word's fields back by the word's format, with 0 in the ignored bits. -/
theorem encode_of_decode {w : Word} {i : Instr} (h : decode w = .ok i) :
    ((partition w).opcode = config.opRType ∧
        encode i = rWord (partition w).funct (partition w).rd (partition w).rs (partition w).rt) ∨
      ((partition w).opcode = config.opLui ∧ encode i = iWord config.opLui 0 (partition w).rt (partition w).imm) ∨
      ((partition w).opcode ≠ config.opRType ∧ (partition w).opcode ≠ config.opLui ∧
        (encode i = iWord (partition w).opcode (partition w).rs (partition w).rt (partition w).imm ∨
          encode i = jWord (partition w).opcode (partition w).target)) := by
  by_cases hr : (partition w).opcode = config.opRType
  · refine .inl ⟨hr, ?_⟩
    simp only [decode, hr, if_true, decodeRType] at h
    split_ifs at h with hfn hfn hfn hfn hfn hfn <;> cases h <;> rw [hfn, encode]
  · by_cases hl : (partition w).opcode = config.opLui
    · refine .inr (.inl ⟨hl, ?_⟩)
      cases (decode_lui hl).symm.trans h
      rfl
    · refine .inr (.inr ⟨hr, hl, ?_⟩)
      simp only [decode, hr, hl, if_false] at h
      split_ifs at h with hop hop hop hop hop hop hop <;> cases h <;> simp only [hop, encode, true_or, or_true]

/-! ## Words that differ in ignored bits only -/

/-- The Legality Checker sees no ignored bit. -/
theorem legal_clearIgnored (w : Word) : legal (clearIgnored w) = legal w := by
  rcases clearIgnored_cases w with ⟨hr, e⟩ | ⟨hl, e⟩ | e <;> rw [e]
  · obtain ⟨hop, hfn, -⟩ := rWord_fields (partition w).funct (partition w).rd (partition w).rs (partition w).rt
    simp only [legal, hop, hfn, hr]
  · obtain ⟨hop, -⟩ := iWord_fields config.opLui 0 (partition w).rt (partition w).imm
    simp only [legal, hop, hl]
    rfl

/-- The decoder reads no ignored bit. -/
theorem decode_clearIgnored (w : Word) : decode (clearIgnored w) = decode w := by
  rcases clearIgnored_cases w with ⟨hr, e⟩ | ⟨hl, e⟩ | e <;> rw [e]
  · rw [decode_rWord]
    simp only [decode, decodeRType, hr, if_true]
  · rw [decode_iWord _ _ _ (by decide) (by decide), decode_lui hl]
    rfl

/-! ## The legal words -/

theorem append_inj {m n : Nat} {a b : BitVec m} {c d : BitVec n} (h : a ++ c = b ++ d) : a = b ∧ c = d := by
  constructor
  · simpa only [BitVec.extractLsb'_append_eq_left] using congrArg (BitVec.extractLsb' n m) h
  · simpa only [BitVec.extractLsb'_append_eq_right] using congrArg (BitVec.extractLsb' 0 n) h

theorem legal_iff_decodes (w : Word) : legal w = true ↔ ∃ i, decode w = .ok i := by
  rw [← Bool.not_eq_false, ← Machine.decode_error_iff_not_legal]
  cases decode w <;> simp

/-- The words of the six R-type rows of R50. -/
theorem and_rTypeMask_mem_iff (w : Word) :
    w &&& 0xFC00003F#32 ∈ [0x20#32, 0x21#32, 0x24#32, 0x25#32, 0x2A#32, 0x2B#32] ↔
      (partition w).opcode = config.opRType ∧ (partition w).funct ∈ config.functs := by
  have hrows : [0x20#32, 0x21#32, 0x24#32, 0x25#32, 0x2A#32, 0x2B#32] =
      config.functs.map fun fn => config.opRType ++ 0#20 ++ fn := by decide
  rw [and_rTypeMask, hrows, List.mem_map]
  constructor
  · rintro ⟨fn, hfn, e⟩
    obtain ⟨hop, rfl⟩ := append_inj e
    exact ⟨((BitVec.append_left_inj _).1 hop).symm, hfn⟩
  · rintro ⟨hop, hfn⟩
    exact ⟨_, hfn, by rw [hop]⟩

/-- The words of the eight other rows of R50. -/
theorem and_opcodeMask_mem_iff (w : Word) :
    w &&& 0xFC000000#32 ∈ [0x08000000#32, 0x10000000#32, 0x20000000#32, 0x28000000#32, 0x2C000000#32, 0x3C000000#32,
        0x8C000000#32, 0xAC000000#32] ↔ (partition w).opcode ∈ config.wholeOpcodes := by
  have hrows : [0x08000000#32, 0x10000000#32, 0x20000000#32, 0x28000000#32, 0x2C000000#32, 0x3C000000#32,
      0x8C000000#32, 0xAC000000#32] = config.wholeOpcodes.map (· ++ 0#26) := by decide
  rw [and_opcodeMask, hrows]
  exact List.mem_map_of_injective fun _ _ h => (BitVec.append_left_inj _).1 h

end Sys2Proof

namespace Sys2Proof.Machine

/-! ## The datapath on the words with ignored bits -/

/-- The ten components on an opcode-0 word: bits 10:6 stand in imm and target, which neither the ALU nor the PC Updater
takes (R61, R64, R73). -/
theorem runWord_rType {w : Word} (h : (partition w).opcode = config.opRType) (s : State) :
    runWord w s = (select rTypeMarker (partition w).funct).map fun op =>
      ((s.setReg (partition w).rd (aluResult op (s.reg (partition w).rs) (s.reg (partition w).rt))).advance) := by
  have hc : controlDecoder (partition w).opcode = .ok { regDst := true, regWrite := true, aluOp := rTypeMarker } :=
    if_pos h
  simp only [runWord, hc]
  cases select rTypeMarker (partition w).funct with
  | error f => rfl
  | ok op => exact commitStages_noAccess _ _ op s rfl rfl rfl

/-- The ten components on a lui word: ALU code 6 ignores its first operand, the only use of the rs field (R67). -/
theorem runWord_lui {w : Word} (h : (partition w).opcode = config.opLui) (s : State) :
    runWord w s = .ok ((s.setReg (partition w).rt (signExtend (partition w).imm <<< 16)).advance) := by
  have hc : controlDecoder (partition w).opcode =
      .ok { aluSrc := true, regWrite := true, aluOp := AluOp.shl16.code } := by
    rw [h]
    rfl
  have hs : select AluOp.shl16.code (partition w).funct = .ok .shl16 := rfl
  simp only [runWord, hc, hs]
  exact commitStages_noAccess _ _ _ s rfl rfl rfl

/-- The datapath sees no ignored bit. -/
theorem runWord_clearIgnored (w : Word) (s : State) : runWord (clearIgnored w) s = runWord w s := by
  rcases clearIgnored_cases w with ⟨hr, e⟩ | ⟨hl, e⟩ | e <;> rw [e]
  · obtain ⟨hop, hfn, hrd, hrs, hrt⟩ :=
      rWord_fields (partition w).funct (partition w).rd (partition w).rs (partition w).rt
    rw [runWord_rType hop, runWord_rType hr, hfn, hrd, hrs, hrt]
  · obtain ⟨hop, himm, -, hrt⟩ := iWord_fields config.opLui 0 (partition w).rt (partition w).imm
    rw [runWord_lui hop, runWord_lui hl, himm, hrt]

/-! ## Assembled transfers -/

/-- A well-formed jump's target field, put under the top bits of `pc + 4`, is the address written. -/
theorem jumpAddress_of_jumpOk {pc addr : Word} (h : jumpOk pc addr = true) :
    jumpAddress pc (addr.extractLsb' 2 26) = addr := by
  simp only [jumpOk, Bool.and_eq_true, beq_iff_eq] at h
  obtain ⟨htop, hlow⟩ := h
  rw [jumpAddress, ← htop, BitVec.extractLsb'_append_extractLsb'_eq_extractLsb' (start₂ := 28) (start₁ := 2) rfl,
    show 0b00#2 = addr.extractLsb' 0 2 from hlow.symm]
  exact BitVec.extractLsb'_append_extractLsb'

/-- A label in range lies at the branch target of its word offset. -/
theorem branchTarget_of_labelOk {pc label : Word} (h : labelOk pc label = true) :
    branchTarget pc (BitVec.ofInt 16 (labelDistance pc label / 4)) = label := by
  simp only [labelOk, offsetOk, Bool.and_eq_true, beq_iff_eq, decide_eq_true_eq] at h
  obtain ⟨hmod, hlow, hhigh⟩ := h
  have hoff : (BitVec.ofInt 16 (labelDistance pc label / 4)).toInt = labelDistance pc label / 4 :=
    BitVec.toInt_ofInt_eq_self (by decide) (by omega) (by omega)
  have hsum : pc.toNat + 4 + 4 * (labelDistance pc label / 4) =
      ((pc.toNat + 4 : Nat) : Int) + labelDistance pc label := by omega
  rw [branchTarget_eq, hoff, hsum, BitVec.ofInt_add, BitVec.ofInt_natCast, labelDistance, BitVec.ofInt_toInt,
    BitVec.ofNat_add, BitVec.ofNat_toNat, BitVec.setWidth_eq]
  exact add_sub_cancel _ _

/-! ## Building a constant -/

theorem append_toNat (hi lo : BitVec 16) : (hi ++ lo).toNat = hi.toNat * 2 ^ 16 + lo.toNat := by
  rw [BitVec.toNat_append, ← Nat.shiftLeft_add_eq_or_of_lt lo.isLt, Nat.shiftLeft_eq]

/-- The upper half lui needs so that the sign-extended lower half, added, gives the constant (R52). -/
theorem luiUpper_add_signExtend (hi lo : BitVec 16) :
    signExtend (if lo.getLsbD 15 then hi + 1 else hi) <<< 16 + signExtend lo = hi ++ lo := by
  rw [signExtend_shiftLeft]
  apply BitVec.eq_of_toNat_eq
  have hhi := hi.isLt
  have hlo := lo.isLt
  simp only [BitVec.toNat_add, append_toNat, signExtend_toNat, getLsbD_fifteen, decide_eq_true_eq]
  by_cases h : 0x8000 ≤ lo.toNat
  · rw [if_pos h, if_neg (by omega), BitVec.toNat_add]
    simp only [BitVec.ofNat_eq_ofNat, BitVec.toNat_ofNat]
    omega
  · rw [if_neg h, if_pos (by omega)]
    simp only [BitVec.toNat_ofNat]
    omega

/-! ## The statements -/

/-- Settles O3: both sides are the fields the word's format has, put together with the ignored bits 0. -/
theorem encodeDecodeKeepsReadBits : Obligations.EncodeDecodeKeepsReadBits := by
  intro w i h
  rcases encode_of_decode h with ⟨hr, e⟩ | ⟨hl, e⟩ | ⟨hr, hl, e | e⟩
  · rw [e, clearIgnored_rType hr]
  · rw [e, clearIgnored_lui hl]
  · rw [e, clearIgnored_other hr hl, iWord_partition]
  · rw [e, clearIgnored_other hr hl, jWord_partition]

/-- Settles O4: the masks keep the fields the Legality Checker looks at, and none of the eight other opcodes is 0. -/
theorem legalWordsAreTheFourteenRows : Obligations.LegalWordsAreTheFourteenRows := by
  intro w
  have hne : (partition w).opcode ∈ config.wholeOpcodes → (partition w).opcode ≠ config.opRType := fun hmem h0 =>
    (List.nodup_cons.1 config_valid.1).1 (h0 ▸ hmem)
  refine ⟨?_, legal_iff_decodes w⟩
  rw [and_rTypeMask_mem_iff, and_opcodeMask_mem_iff, legal_iff, and_iff_right_of_imp hne]

/-- Settles O5: legality, decoding and the datapath do not tell a word from the one with its ignored bits cleared. -/
theorem ignoredBitsChangeNothing : Obligations.IgnoredBitsChangeNothing := by
  intro w v h
  refine ⟨?_, ?_, fun s => ?_⟩
  · rw [← legal_clearIgnored w, h, legal_clearIgnored]
  · rw [← decode_clearIgnored w, h, decode_clearIgnored]
  · rw [← runWord_clearIgnored w, h, runWord_clearIgnored]

/-- Settles O47, by the address each form's well-formedness makes its instruction reach. -/
theorem assembledTransfersReachTheirAddress : Obligations.AssembledTransfersReachTheirAddress := by
  constructor
  · intro s addr h
    exact ⟨_, _, if_pos h, exec_j _ s, jumpAddress_of_jumpOk h⟩
  · intro s r label h
    have hlabel : labelOk s.pc label = true := (Bool.and_eq_true_iff.1 h).2
    refine ⟨_, _, if_pos h, exec_beq _ _ _ s, ?_⟩
    rw [if_pos rfl]
    exact branchTarget_of_labelOk hlabel

/-- Settles O53: the first instruction leaves the raised upper half, and the second adds the signed lower half. -/
theorem luiThenAddiBuildsAnyConstant : Obligations.LuiThenAddiBuildsAnyConstant := by
  intro r hi lo s
  refine ⟨_, _, exec_lui r _ s, exec_addi r r lo _, ?_⟩
  simp only [State.advance_reg, State.setReg_reg_self]
  exact luiUpper_add_signExtend hi lo

end Sys2Proof.Machine
end

section
/-! PROOFS. The family of spec/40_datapath.md: what each of the ten components answers, and that the chain of them is the
meaning of the instruction a word decodes to. -/

namespace Sys2Proof.Machine

/-! ## The ALU and its Selector -/

@[simp] theorem AluOp.code_ofCode (c : BitVec 3) : (AluOp.ofCode c).code = c := by
  revert c
  decide

/-- Every ALUOp but the marker passes through the Selector, whatever the funct (R66). -/
theorem select_of_ne_marker {c : BitVec 3} (h : c ≠ rTypeMarker) (funct : BitVec 6) :
    select c funct = .ok (AluOp.ofCode c) := if_pos h

/-- The code of every operation but `not` is a number other than the marker, and the Selector passes it (R66). -/
theorem select_code {op : AluOp} (h : op ≠ .not) (funct : BitVec 6) : select op.code funct = .ok op := by
  have hne : op.code ≠ rTypeMarker := fun e => h (by rw [← AluOp.ofCode_code op, e]; rfl)
  rw [select_of_ne_marker hne, AluOp.ofCode_code]

/-- Subtraction as the integer difference, modulo 2^32 (R77). -/
theorem sub_toNat_eq_emod (a b : Word) : ((a - b).toNat : Int) = ((a.toNat : Int) - b.toNat) % 2 ^ 32 := by
  have ha := a.isLt
  have hb := b.isLt
  rw [BitVec.toNat_sub]
  omega

theorem zeroFlag_sltWord (less : Bool) : zeroFlag (sltWord less) = true ↔ less = false := by
  cases less <;> decide

/-! ## The Control Decoder -/

/-- What the rest of the datapath relies on in the vector of an opcode (R61). -/
structure ControlVector.Consistent (opcode : BitVec 6) (c : ControlVector) : Prop where
  oneAccess : ¬ (c.memRead = true ∧ c.memWrite = true)
  oneTransfer : ¬ (c.branch = true ∧ c.jump = true)
  loadsWhatItReads : c.memToReg = true → c.memRead = true
  rdWritten : c.regDst = true → c.regWrite = true
  markerIsRType : c.aluOp = rTypeMarker → opcode = config.opRType

/-- The Control Decoder answers a consistent vector for the nine opcodes and halts on every other (R59, R61). -/
theorem controlDecoder_cases (opcode : BitVec 6) :
    (opcode ∈ config.opRType :: config.wholeOpcodes ∧
        ∃ c, controlDecoder opcode = .ok c ∧ c.Consistent opcode) ∨
      (opcode ∉ config.opRType :: config.wholeOpcodes ∧
        controlDecoder opcode = .error (.halt .controlDecodeFault)) := by
  by_cases h : opcode ∈ config.opRType :: config.wholeOpcodes
  · refine .inl ⟨h, ?_⟩
    simp only [Config.wholeOpcodes, List.mem_cons, List.not_mem_nil, or_false] at h
    rcases h with rfl | rfl | rfl | rfl | rfl | rfl | rfl | rfl | rfl <;>
      exact ⟨_, rfl, by decide, by decide, by decide, by decide, by decide⟩
  · refine .inr ⟨h, ?_⟩
    simp only [Config.wholeOpcodes, List.mem_cons, List.not_mem_nil, or_false, not_or] at h
    simp only [controlDecoder, h, if_false, raiseHalt]

/-! ## The Memory Access Unit -/

theorem memAccess_read (r d2 : Word) (m : Memory) :
    memAccess r d2 false true m = (memRead m r).map fun l => (m, l) := by
  simp only [memAccess, Bool.false_eq_true, if_true, if_false]
  cases memRead m r <;> rfl

theorem memAccess_write (r d2 : Word) (m : Memory) :
    memAccess r d2 true false m = (memWrite m r d2).map fun m' => (m', Config.unreadLoadValue r) := by
  simp only [memAccess, Bool.false_eq_true, if_true, if_false]
  cases memWrite m r d2 <;> rfl

/-- With both flags the read follows the write (R71). -/
theorem memAccess_both {r d2 : Word} {m m' : Memory} (h : memWrite m r d2 = .ok m') :
    memAccess r d2 true true m = (memRead m' r).map fun l => (m', l) := by
  simp only [memAccess, if_true, h]
  cases memRead m' r <;> rfl

/-- With any flag the unit stops when the checks of its address do (R70, R71). -/
theorem memAccess_error {r : Word} {f : Fault} (h : checkDataAddress r = .error f) (d2 : Word) (m : Memory)
    {write read : Bool} (hflag : (write || read) = true) : memAccess r d2 write read m = .error f := by
  cases write with
  | true => simp only [memAccess, if_true, memWrite, h]
  | false =>
    obtain rfl : read = true := hflag
    rw [memAccess_read, memRead, h]
    rfl

/-! ## The Register Writeback Unit -/

theorem writeback_write (memToReg regDst : Bool) (rt rd : Reg) (l r : Word) (s : State) :
    writeback true memToReg regDst rt rd l r s =
      s.setReg (if regDst then rd else rt) (if memToReg then l else r) := rfl

/-! ## The PC Updater -/

/-- Without Branch the PC Updater does not look at the Zero flag (R68). -/
theorem pcUpdate_noBranch (pc : Word) (jump z z' : Bool) (e : Word) (target : BitVec 26) :
    pcUpdate pc false jump z e target = pcUpdate pc false jump z' e target := rfl

/-- The branch adjustment: the offset counts words from the next instruction (R73). -/
theorem pcUpdate_branch (pc : Word) (branch zero : Bool) (e : Word) (target : BitVec 26) :
    pcUpdate pc branch false zero e target = if (branch && zero) = true then (pc + 4 : Word) + e <<< 2 else pc + 4 := rfl

/-- A jump replaces the low 28 bits of the branch-adjusted pc (R73). -/
theorem pcUpdate_jump (pc : Word) (branch zero : Bool) (e : Word) (target : BitVec 26) :
    pcUpdate pc branch true zero e target =
      (pcUpdate pc branch false zero e target).extractLsb' 28 4 ++ target ++ 0b00#2 := rfl

theorem add_shiftLeft_two_toNat (p e : Word) : (p + e <<< 2).toNat = (p.toNat + e.toNat * 4) % 2 ^ 32 := by
  rw [BitVec.toNat_add, BitVec.toNat_shiftLeft, Nat.shiftLeft_eq, Nat.add_mod_mod]

/-! ## The stages after the fetch, by the opcode -/

/-- The last three stages stop as the Memory Access Unit does, and commit what it answers (R74). -/
theorem commitStages_eq_map (f : Fields) (c : ControlVector) (op : AluOp) (s : State) :
    commitStages f c op s =
      (memAccess (aluStage f c op s).1 (readRegisters s f.rs f.rt).2 c.memWrite c.memRead s.mem).map fun p =>
        ((writeback c.regWrite c.memToReg c.regDst f.rt f.rd p.2 (aluStage f c op s).1 s).setMem p.1).setPc
          (pcUpdate s.pc c.branch c.jump (aluStage f c op s).2 (signExtend f.imm) f.target) := by
  unfold commitStages
  cases memAccess (aluStage f c op s).1 (readRegisters s f.rs f.rt).2 c.memWrite c.memRead s.mem <;> rfl

/-- The ten components on a word of the immediate instructions: the Selector passes the vector's code, and rt gets the
result (R61, R90). -/
theorem runWord_immediate {w : Word} {op : AluOp} (hop : op ≠ .not)
    (hc : controlDecoder (partition w).opcode = .ok { aluSrc := true, regWrite := true, aluOp := op.code }) (s : State) :
    runWord w s = .ok ((s.setReg (partition w).rt
      (aluResult op (s.reg (partition w).rs) (signExtend (partition w).imm))).advance) := by
  simp only [runWord, hc, select_code hop]
  exact commitStages_noAccess _ _ op s rfl rfl rfl

theorem runWord_lw {w : Word} (h : (partition w).opcode = config.opLw) (s : State) :
    runWord w s = (memRead s.mem (effectiveAddress s (partition w).rs (partition w).imm)).map fun v =>
      (s.setReg (partition w).rt v).advance := by
  have hc : controlDecoder (partition w).opcode = .ok
      { aluSrc := true, memRead := true, regWrite := true, memToReg := true, aluOp := AluOp.add.code } := by
    rw [h]
    rfl
  simp only [runWord, hc, select_code (op := .add) (by decide)]
  refine (commitStages_eq_map _ _ .add s).trans ?_
  change (memAccess (effectiveAddress s (partition w).rs (partition w).imm) _ false true s.mem).map _ = _
  rw [memAccess_read]
  cases memRead s.mem (effectiveAddress s (partition w).rs (partition w).imm) <;> rfl

theorem runWord_sw {w : Word} (h : (partition w).opcode = config.opSw) (s : State) :
    runWord w s = (memWrite s.mem (effectiveAddress s (partition w).rs (partition w).imm) (s.reg (partition w).rt)).map
      fun m => (s.setMem m).advance := by
  have hc : controlDecoder (partition w).opcode =
      .ok { aluSrc := true, memWrite := true, aluOp := AluOp.add.code } := by
    rw [h]
    rfl
  simp only [runWord, hc, select_code (op := .add) (by decide)]
  refine (commitStages_eq_map _ _ .add s).trans ?_
  change (memAccess (effectiveAddress s (partition w).rs (partition w).imm) (s.reg (partition w).rt) true false
    s.mem).map _ = _
  rw [memAccess_write]
  cases memWrite s.mem (effectiveAddress s (partition w).rs (partition w).imm) (s.reg (partition w).rt) <;> rfl

theorem runWord_beq {w : Word} (h : (partition w).opcode = config.opBeq) (s : State) :
    runWord w s = .ok (s.setPc (if zeroFlag (aluResult .sub (s.reg (partition w).rs) (s.reg (partition w).rt))
      then branchTarget s.pc (partition w).imm else s.nextPc)) := by
  have hc : controlDecoder (partition w).opcode = .ok { branch := true, aluOp := AluOp.sub.code } := by
    rw [h]
    rfl
  simp only [runWord, hc, select_code (op := .sub) (by decide)]
  exact commitStages_noAccess _ _ _ s rfl rfl rfl

theorem runWord_j {w : Word} (h : (partition w).opcode = config.opJ) (s : State) :
    runWord w s = .ok (s.setPc (jumpAddress s.pc (partition w).target)) := by
  have hc : controlDecoder (partition w).opcode = .ok { jump := true } := by
    rw [h]
    rfl
  have hs : select 0 (partition w).funct = .ok .add := rfl
  simp only [runWord, hc, hs]
  exact commitStages_noAccess _ _ _ s rfl rfl rfl

/-! ## The chain of components is the meaning -/

/-- A fetch that answers has passed all three tests (R56). -/
theorem fetch_ok {pc : Word} {m : Memory} {w : Word} (h : fetch pc m = .ok w) :
    pc.toNat % 4 = 0 ∧ pc.toNat ≤ 0x3FFFC ∧ w = m.word (pc.toNat / 4) ∧ legal w = true := by
  rcases fetch_cases pc m with ⟨-, e⟩ | ⟨-, -, e⟩ | ⟨-, -, -, e⟩ | ⟨h4, hin, hl, e⟩ <;> cases h.symm.trans e
  exact ⟨h4, hin, rfl, hl⟩

/-- What the cycle answers when the stages after the fetch end so (R76). -/
def stagesOutcome : Except Fault State → Host.Outcome State Fault Refusal
  | .error f => .fault f
  | .ok t => .next t

theorem cycle_of_fetch {s : State} {w : Word} (h : fetch s.pc s.mem = .ok w) :
    cycle s = stagesOutcome (runWord w s) := by
  simp only [cycle, h]
  cases runWord w s <;> rfl

theorem cycle_of_fetch_error {s : State} {f : Fault} (h : fetch s.pc s.mem = .error f) : cycle s = .fault f := by
  simp only [cycle, h]

/-- On an opcode-0 word that decodes, the Selector has an operation for the funct, and it is the meaning's (R66). -/
theorem select_of_decode_rType {w : Word} {i : Instr} (hr : (partition w).opcode = config.opRType)
    (h : decode w = .ok i) : ∃ op, select rTypeMarker (partition w).funct = .ok op ∧
      ∀ s, exec i s = execRType op (partition w).rd (partition w).rs (partition w).rt s := by
  simp only [decode, hr, if_true, decodeRType] at h
  split_ifs at h with hfn hfn hfn hfn hfn hfn <;> cases h <;> rw [hfn] <;> exact ⟨_, rfl, fun _ => rfl⟩

/-- The stages after the fetch, on a word that decodes, are the meaning of its instruction (R75). -/
theorem stagesOutcome_runWord {w : Word} {i : Instr} (h : decode w = .ok i) (s : State) :
    stagesOutcome (runWord w s) = exec i s := by
  by_cases hr : (partition w).opcode = config.opRType
  · obtain ⟨op, hop, hexec⟩ := select_of_decode_rType hr h
    rw [runWord_rType hr, hop, hexec]
    rfl
  · simp only [decode, hr, if_false] at h
    split_ifs at h with hop hop hop hop hop hop hop hop <;> cases h
    · rw [runWord_j hop, exec_j]; rfl
    · rw [runWord_beq hop]; rfl
    · rw [runWord_immediate (op := .add) (by decide) (by rw [hop]; rfl)]; rfl
    · rw [runWord_immediate (op := .slt) (by decide) (by rw [hop]; rfl)]; rfl
    · rw [runWord_immediate (op := .sltu) (by decide) (by rw [hop]; rfl)]; rfl
    · rw [runWord_lui hop, exec_lui]; rfl
    · rw [runWord_lw hop, exec_lw]
      cases memRead s.mem (effectiveAddress s (partition w).rs (partition w).imm) <;> rfl
    · rw [runWord_sw hop, exec_sw]
      cases memWrite s.mem (effectiveAddress s (partition w).rs (partition w).imm) (s.reg (partition w).rt) <;> rfl

/-- On a word that decodes, the stages after the fetch stop only where a data access does (R110). -/
theorem runWord_error {w : Word} {i : Instr} {s : State} {f : Fault} (h : decode w = .ok i)
    (he : runWord w s = .error f) : ∃ a, i.dataAddress s = some a ∧ checkDataAddress a = .error f := by
  have hexec := stagesOutcome_runWord h s
  rw [he] at hexec
  exact (exec_fault_iff i s f).1 hexec.symm

/-- No cycle is refused: the fetch only halts, and every instruction has a meaning (R76). -/
theorem step_ne_refused (s : State) (r : Refusal) : step s ≠ .refused r := by
  rcases step_cases s with ⟨-, e⟩ | ⟨-, -, e⟩ | ⟨-, -, -, e⟩ | ⟨i, -, -, e⟩ <;> rw [e]
  · exact fun h => nomatch h
  · exact fun h => nomatch h
  · exact fun h => nomatch h
  · exact exec_ne_refused i s r

/-! ## The statements -/

/-- Settles O6: the Sign Extender is the library's sign extension, whose bits and signed value are known. -/
theorem signExtenderKeepsSignedValue : Obligations.SignExtenderKeepsSignedValue := by
  intro v
  rw [signExtend_eq]
  refine ⟨fun k hk => ?_, fun k hk hk' => ?_, BitVec.toInt_signExtend_of_le (by decide)⟩
  · rw [BitVec.getLsbD_signExtend, if_pos hk, decide_eq_true (by omega), Bool.true_and]
  · rw [BitVec.getLsbD_signExtend, if_neg (by omega), decide_eq_true hk', Bool.true_and]
    rfl

/-- Settles O11, by what the unit answers under each setting of its flags and what a write leaves behind. -/
theorem memoryAccessUnitByFlags : Obligations.MemoryAccessUnitByFlags := by
  intro r d2 m hm
  refine ⟨⟨_, memAccess_neither r d2 m⟩, fun write read hflag => ⟨fun h => ?_, fun h h' => ?_⟩, fun hr => ?_⟩
  · exact memAccess_error (checkDataAddress_misaligned h) d2 m hflag
  · exact memAccess_error (checkDataAddress_beyond h h') d2 m hflag
  · have hw := memWrite_accessible hr m d2
    obtain ⟨-, hword⟩ := memWrite_word_self hm hw
    refine ⟨?_, _, ⟨Config.unreadLoadValue r, ?_⟩, ?_, hword, fun a ha => memWrite_readByte_outside hw ha⟩
    · rw [memAccess_read, memRead_accessible hr]; rfl
    · rw [memAccess_write, hw]; rfl
    · rw [memAccess_both hw, memRead_accessible hr, hword]; rfl

/-- Settles O13: the sum of the branch adjustment modulo 2^32, and the number a jump forms from it. -/
theorem pcUpdaterArithmetic : Obligations.PcUpdaterArithmetic := by
  intro pc e branch jump zero target
  refine ⟨fun h => ?_, fun h => ?_, ?_⟩
  · rw [pcUpdate_branch, h]
    exact pc_add_four_toNat pc
  · rw [pcUpdate_branch, if_pos h, add_shiftLeft_two_toNat, pc_add_four_toNat, Nat.mod_add_mod]
  · rintro rfl
    have ht := target.isLt
    rw [pcUpdate_jump, jump_toNat]
    omega

/-- Settles O16: both fetch alike; on the word fetched the chain of components is the decoded instruction's meaning. -/
theorem stepIsTheDatapathCycle : Obligations.StepIsTheDatapathCycle := by
  intro s
  rw [step]
  cases hf : fetch s.pc s.mem with
  | error f => exact (cycle_of_fetch_error hf).symm
  | ok w =>
    obtain ⟨-, -, -, hl⟩ := fetch_ok hf
    obtain ⟨i, hi⟩ := (legal_iff_decodes w).1 hl
    simp only [hi]
    rw [cycle_of_fetch hf, stagesOutcome_runWord hi]

/-- Settles O17: a legal word decodes, so only its data access can stop it; opcode 0x3F and funct 0 have no row. -/
theorem defensiveHaltsAreUnreachable : Obligations.DefensiveHaltsAreUnreachable := by
  refine ⟨fun w s hl => ?_, ⟨0xFC000000#32, fun _ => rfl⟩, ⟨0x00000000#32, fun _ => rfl⟩⟩
  obtain ⟨i, hi⟩ := (legal_iff_decodes w).1 hl
  have hstop : ∀ f, runWord w s = .error f →
      f = .halt .dataMisaligned ∨ f = .unspecified .dataAddressOutOfRange := by
    intro f h
    obtain ⟨a, -, hc⟩ := runWord_error hi h
    exact (checkDataAddress_error hc).imp And.left And.left
  exact ⟨fun h => absurd (hstop _ h) (by decide), fun h => absurd (hstop _ h) (by decide)⟩

/-- Settles O7, code by code. -/
theorem aluComputesEachCode : Obligations.AluComputesEachCode := by
  intro a b
  refine ⟨BitVec.toNat_add a b, sub_toNat_eq_emod a b, ?_, ?_, fun k => BitVec.getLsbD_and, fun k => BitVec.getLsbD_xor,
    ?_, fun k hk => ?_⟩
  · exact (sltWord_eq _).trans (by simp only [decide_eq_true_eq])
  · exact (sltWord_eq _).trans (by simp only [decide_eq_true_eq])
  · change (b <<< 16).toNat = _
    rw [BitVec.toNat_shiftLeft, Nat.shiftLeft_eq]
  · change (~~~a).getLsbD k = _
    rw [BitVec.getLsbD_not, decide_eq_true hk, Bool.true_and]

/-- Settles O8: the flag is defined by the result, and the PC Updater masks it with Branch. -/
theorem zeroFlagMeansZeroResult : Obligations.ZeroFlagMeansZeroResult := by
  intro a b
  refine ⟨fun op => zeroFlag_iff _, zeroFlag_sub a b, ?_, ?_, fun pc e jump z z' t => pcUpdate_noBranch pc jump z z' e t⟩
  · exact (zeroFlag_sltWord _).trans decide_eq_false_iff_not
  · exact (zeroFlag_sltWord _).trans decide_eq_false_iff_not

/-- Settles O9: the pass-through, the eight rows, and what no row takes. -/
theorem selectorFollowsItsTable : Obligations.SelectorFollowsItsTable := by
  refine ⟨fun c f hc => ⟨_, select_of_ne_marker hc f, AluOp.code_ofCode c⟩, fun f => ⟨fun n hrow => ?_, fun hf => ?_⟩⟩
  · simp only [List.mem_cons, List.not_mem_nil, or_false, Prod.mk.injEq] at hrow
    rcases hrow with ⟨rfl, rfl⟩ | ⟨rfl, rfl⟩ | ⟨rfl, rfl⟩ | ⟨rfl, rfl⟩ | ⟨rfl, rfl⟩ | ⟨rfl, rfl⟩ | ⟨rfl, rfl⟩ |
      ⟨rfl, rfl⟩ <;> exact ⟨_, rfl, rfl⟩
  · simp only [List.mem_cons, List.not_mem_nil, or_false, not_or] at hf
    simp [select, rTypeMarker, raiseHalt, hf]

/-- Settles O10, from the Control Decoder's two answers. -/
theorem controlVectorsAreConsistent : Obligations.ControlVectorsAreConsistent := by
  intro op
  rw [← List.mem_cons]
  rcases controlDecoder_cases op with ⟨hmem, c, e, hc⟩ | ⟨hmem, e⟩ <;> rw [e]
  · refine ⟨fun _ => ⟨c, rfl⟩, fun h0 hop => ?_, ?_⟩
    · exact absurd hmem (List.not_mem_cons_of_ne_of_not_mem h0 hop)
    · rintro _ ⟨⟩
      exact ⟨hc.oneAccess, hc.oneTransfer, hc.loadsWhatItReads, hc.rdWritten, hc.markerIsRType⟩
  · exact ⟨fun h => absurd h hmem, fun _ _ => rfl, fun _ h => nomatch h⟩

/-- Settles O12, by the read of a register after a write. -/
theorem writebackChangesOneRegisterOrNone : Obligations.WritebackChangesOneRegisterOrNone := by
  intro regWrite memToReg regDst rt rd l r s
  refine ⟨writeback_pc _ _ _ _ _ _ _ _, writeback_mem _ _ _ _ _ _ _ _, fun k => ?_⟩
  cases regWrite with
  | false => simp [writeback_none]
  | true =>
    rw [writeback_write, State.setReg_reg]
    simp only [true_and]

/-- Settles O14: the four ends of a fetch exclude one another. -/
theorem fetcherHaltsOrReturnsTheWord : Obligations.FetcherHaltsOrReturnsTheWord := by
  intro pc m
  rcases fetch_cases pc m with ⟨h4, e⟩ | ⟨h4, hout, e⟩ | ⟨h4, hin, hl, e⟩ | ⟨h4, hin, hl, e⟩ <;> rw [e]
  · simp [h4]
  · have hidx : 65535 < pc.toNat / 4 := by omega
    simp [h4, hidx]
  · have hidx : pc.toNat / 4 ≤ 65535 := by omega
    simp [h4, hidx, hl]
  · have hidx : pc.toNat / 4 ≤ 65535 := by omega
    refine ⟨by simp [h4], by simp [hidx], by simp [hl], fun w => ⟨fun hw => ?_, fun ⟨_, _, hw, _⟩ => congrArg _ hw.symm⟩⟩
    obtain ⟨-, -, hword, hlw⟩ := fetch_ok (e.trans hw)
    exact ⟨h4, hidx, hword, hlw⟩

/-- Settles O15: the three premises are `Runs`. -/
theorem stepRunsTheDecodedInstruction : Obligations.StepRunsTheDecodedInstruction := by
  intro s i h4 hin hd
  exact step_of_runs ⟨h4, hin, hd⟩

/-- Settles O20: the outcome of a step is a next state or a fault, since none is refused. -/
theorem everyCycleHasAnOutcome : Obligations.EveryCycleHasAnOutcome := by
  intro s
  cases h : step s with
  | next t => exact .inl ⟨t, rfl⟩
  | fault f =>
    cases f with
    | halt c => exact .inr (.inl ⟨c, rfl⟩)
    | unspecified r => exact .inr (.inr ⟨r, rfl⟩)
  | refused r => exact absurd h (step_ne_refused s r)

end Sys2Proof.Machine
end

section
/-! PROOFS. The family of spec/41_rtype.md: the words of the six register-type rows, and what their instructions
write. -/

namespace Sys2Proof

/-! ## The words of a register-type row -/

/-- A word that matches a register-type row of R50 decodes as the row's word with its fields and 0 in bits 10:6. -/
theorem decode_of_rTypeRow {w : Word} {fn : BitVec 6} (h : w &&& 0xFC00003F#32 = config.opRType ++ 0#20 ++ fn) :
    decode w = decode (rWord fn (partition w).rd (partition w).rs (partition w).rt) := by
  rw [and_rTypeMask] at h
  obtain ⟨hhigh, rfl⟩ := append_inj h
  have hop : (partition w).opcode = config.opRType := (append_inj hhigh).1
  rw [← decode_clearIgnored, clearIgnored_rType hop]

end Sys2Proof

namespace Sys2Proof.Machine

/-! ## The result, and its write -/

/-- An instruction that writes one register and advances has the whole effect of `WritesReg`, for every way to write its
value. -/
theorem exec_writesReg {i : Instr} {s : State} {d : Reg} {u v : Word}
    (h : exec i s = .next ((s.setReg d u).advance)) (huv : u = v) :
    ∃ t, exec i s = .next t ∧ WritesReg s t d v :=
  ⟨_, h, huv ▸ writesReg_setReg_advance s d u⟩

/-- Subtraction is the integer difference, modulo 2^32 (R77, R82). -/
theorem sub_eq_ofInt (a b : Word) : a - b = BitVec.ofInt 32 ((a.toNat : Int) - b.toNat) := by
  apply BitVec.eq_of_toNat_eq
  have hdiff := sub_toNat_eq_emod a b
  rw [BitVec.toNat_ofInt]
  omega

/-- The word of a comparison is 1 where it holds and 0 where it does not (R67; log entry 9). -/
theorem sltWord_decide (p : Prop) [Decidable p] : sltWord (decide p) = if p then 1 else 0 :=
  (sltWord_eq _).trans (if_congr decide_eq_true_iff rfl rfl)

/-! ## The statements -/

/-- Settles O28, by the row of funct 0x20 and the wrapping sum the meaning writes. -/
theorem addAddsModulo : Obligations.AddAddsModulo := by
  constructor
  · intro w h
    exact (decode_of_rTypeRow (fn := config.fnAdd) h).trans (decode_rWord _ _ _ _)
  · intro rd rs rt s
    exact exec_writesReg (exec_add rd rs rt s) (BitVec.add_def ..)

/-- Settles O29, by the row of funct 0x21 and the wrapping difference the meaning writes. -/
theorem subSubtractsModulo : Obligations.SubSubtractsModulo := by
  constructor
  · intro w h
    exact (decode_of_rTypeRow (fn := config.fnSub) h).trans (decode_rWord _ _ _ _)
  · intro rd rs rt s
    exact exec_writesReg (exec_sub rd rs rt s) (sub_eq_ofInt _ _)

/-- Settles O30, by the row of funct 0x24 and the bits of the conjunction the meaning writes. -/
theorem andIsBitwiseAnd : Obligations.AndIsBitwiseAnd := by
  constructor
  · intro w h
    exact (decode_of_rTypeRow (fn := config.fnAnd) h).trans (decode_rWord _ _ _ _)
  · intro rd rs rt s
    exact ⟨_, _, exec_and rd rs rt s, writesReg_setReg_advance s rd _, fun _ => BitVec.getLsbD_and⟩

/-- Settles O31, by the row of funct 0x25: ALU code 5 is XOR, and that is what the meaning writes. -/
theorem orComputesXor : Obligations.OrComputesXor := by
  constructor
  · intro w h
    exact (decode_of_rTypeRow (fn := config.fnOr) h).trans (decode_rWord _ _ _ _)
  · intro rd rs rt s
    exact ⟨_, _, exec_or rd rs rt s, writesReg_setReg_advance s rd _, fun _ => BitVec.getLsbD_xor⟩

/-- Settles O32, by the row of funct 0x2A and the comparison of the signed values. -/
theorem sltComparesSigned : Obligations.SltComparesSigned := by
  constructor
  · intro w h
    exact (decode_of_rTypeRow (fn := config.fnSlt) h).trans (decode_rWord _ _ _ _)
  · intro rd rs rt s
    exact exec_writesReg (exec_slt rd rs rt s) (sltWord_decide _)

/-- Settles O33, by the row of funct 0x2B and the comparison of the unsigned values. -/
theorem sltuComparesUnsigned : Obligations.SltuComparesUnsigned := by
  constructor
  · intro w h
    exact (decode_of_rTypeRow (fn := config.fnSltu) h).trans (decode_rWord _ _ _ _)
  · intro rd rs rt s
    exact exec_writesReg (exec_sltu rd rs rt s) (sltWord_decide _)

end Sys2Proof.Machine
end

section
/-! PROOFS. The family of spec/42_itype_alu.md: the words of the immediate rows, and what their instructions write. -/

namespace Sys2Proof

/-! ## The words of an I-type row -/

/-- A word with an I-type row's opcode decodes as the row's word with its fields (R43). -/
theorem decode_of_iTypeRow {w : Word} {op : BitVec 6} (h : (partition w).opcode = op) :
    decode w = decode (iWord op (partition w).rs (partition w).rt (partition w).imm) := by
  rw [← h, iWord_partition]

end Sys2Proof

namespace Sys2Proof.Machine

/-- The sign-extended immediate as a signed number (R63, R92). -/
theorem signExtend_toInt (v : BitVec 16) : (signExtend v).toInt = v.toInt := by
  rw [signExtend_eq, BitVec.toInt_signExtend_of_le (by decide)]

/-! ## The statements -/

/-- Settles O34, by the row of OP_ADDI and the wrapping sum with the extended immediate the meaning writes. -/
theorem addiAddsTheSignedImmediate : Obligations.AddiAddsTheSignedImmediate := by
  constructor
  · intro w h
    exact (decode_of_iTypeRow h).trans (decode_iWord _ _ _ (by decide) (by decide))
  · intro rt rs imm s
    exact exec_writesReg (exec_addi rt rs imm s) (add_signExtend _ _)

/-- Settles O35, by the row of OP_SLTI: the Sign Extender keeps the signed value the comparison sees. -/
theorem sltiComparesSigned : Obligations.SltiComparesSigned := by
  constructor
  · intro w h
    exact (decode_of_iTypeRow h).trans (decode_iWord _ _ _ (by decide) (by decide))
  · intro rt rs imm s
    refine exec_writesReg (exec_slti rt rs imm s) ?_
    rw [sltWord_decide, signExtend_toInt]

/-- Settles O36, by the row of OP_SLTIU: the extended immediate as an unsigned number is in one of R93's two ranges. -/
theorem sltiuComparesWithExtendedImmediate : Obligations.SltiuComparesWithExtendedImmediate := by
  constructor
  · intro w h
    exact (decode_of_iTypeRow h).trans (decode_iWord _ _ _ (by decide) (by decide))
  · intro rt rs imm s
    refine exec_writesReg (exec_sltiu rt rs imm s) ?_
    rw [sltWord_decide, signExtend_toNat]

/-- Settles O37: OP_LUI's row reads no rs field, and the shift leaves the immediate above sixteen zeros. -/
theorem luiLoadsTheUpperHalf : Obligations.LuiLoadsTheUpperHalf := by
  constructor
  · intro w h
    exact decode_lui h
  · intro rt imm s
    exact exec_writesReg (exec_lui rt imm s) (signExtend_shiftLeft imm)

end Sys2Proof.Machine
end

section
/-! PROOFS. The family of spec/43_load_store.md: what lw and sw do at an accessible address, and what a load after a
store finds. -/

namespace Sys2Proof.Machine

/-! ## Load and store at an accessible address -/

/-- A load completes with the word at its effective address (R97). -/
theorem exec_lw_accessible {s : State} {rs : Reg} {imm : BitVec 16} (h : Accessible (effectiveAddress s rs imm))
    (rt : Reg) : exec (.lw rt rs imm) s =
      .next ((s.setReg rt (s.mem.word ((effectiveAddress s rs imm).toNat / 4))).advance) := by
  rw [exec_lw, memRead_accessible h]

/-- A store completes with the memory its write answers (R98). -/
theorem exec_sw_accessible {s : State} {rs : Reg} {imm : BitVec 16} (h : Accessible (effectiveAddress s rs imm))
    (rt : Reg) : ∃ m, memWrite s.mem (effectiveAddress s rs imm) (s.reg rt) = .ok m ∧
      exec (.sw rt rs imm) s = .next ((s.setMem m).advance) := by
  have hw := memWrite_accessible h s.mem (s.reg rt)
  exact ⟨_, hw, by rw [exec_sw, hw]⟩

/-- The effective address depends on the state by the base register only (R96). -/
theorem effectiveAddress_congr {s u : State} {rs : Reg} (h : u.reg rs = s.reg rs) (imm : BitVec 16) :
    effectiveAddress u rs imm = effectiveAddress s rs imm := by
  rw [effectiveAddress, effectiveAddress, h]

/-- A store that completes had an accessible address, and its word is now the stored register (R98). -/
theorem exec_sw_next_word {rt rs : Reg} {imm : BitVec 16} {s t : State} (hm : s.mem.wf)
    (h : exec (.sw rt rs imm) s = .next t) :
    Accessible (effectiveAddress s rs imm) ∧ t.mem.word ((effectiveAddress s rs imm).toNat / 4) = s.reg rt := by
  obtain ⟨m, hw, rfl⟩ := exec_sw_next h
  exact memWrite_word_self hm hw

/-! ## The statements -/

/-- Settles O38, by the row of OP_LW and the load at an accessible address. -/
theorem lwLoadsTheWord : Obligations.LwLoadsTheWord := by
  constructor
  · intro w h
    exact (decode_of_iTypeRow h).trans (decode_iWord _ _ _ (by decide) (by decide))
  · intro rt rs imm s ea hea hacc
    rw [← effectiveAddress_eq_ofInt] at hea
    subst hea
    exact exec_writesReg (exec_lw_accessible hacc rt) rfl

/-- Settles O39, by the row of OP_SW and what the write at an accessible address changes and keeps. -/
theorem swStoresTheWord : Obligations.SwStoresTheWord := by
  constructor
  · intro w h
    exact (decode_of_iTypeRow h).trans (decode_iWord _ _ _ (by decide) (by decide))
  · intro rt rs imm s ea hm hea hacc
    rw [← effectiveAddress_eq_ofInt] at hea
    subst hea
    obtain ⟨m, hw, he⟩ := exec_sw_accessible hacc rt
    exact ⟨_, he, (exec_sw_next_word hm he).2, fun _ ha => memWrite_readByte_outside hw ha,
      exec_regs_of_no_dest rfl he, rfl⟩

/-- Settles O42: the load's address is the store's, and the word there is still the stored one. -/
theorem storeThenLoadReturnsTheValue : Obligations.StoreThenLoadReturnsTheValue := by
  intro a b c imm s t u hm hsw hbase hword
  obtain ⟨hacc, hstored⟩ := exec_sw_next_word hm hsw
  rw [← effectiveAddress_congr hbase imm] at hacc hword hstored
  refine ⟨_, exec_lw_accessible hacc c, ?_⟩
  rw [State.advance_reg, State.setReg_reg_self, hword, hstored]

end Sys2Proof.Machine
end

section
/-! PROOFS. The family of spec/44_control_transfer.md: the words of the beq and j rows, and where the two transfers go. -/

namespace Sys2Proof

/-- A word with the jump's opcode decodes to the jump of its target field (R44, R50). -/
theorem decode_j {w : Word} (h : (partition w).opcode = config.opJ) : decode w = .ok (.j (partition w).target) := by
  have hr : config.opJ ≠ config.opRType := by decide
  simp only [decode, h, if_neg hr, if_true]

end Sys2Proof

namespace Sys2Proof.Machine

/-! ## What a transfer leaves unchanged -/

/-- A transfer writes the pc and nothing else (R101, R102). -/
theorem setPc_frame (s : State) (p : Word) : SameRegs s (s.setPc p) ∧ SameMemory s (s.setPc p) :=
  ⟨fun _ => rfl, fun _ => rfl⟩

/-! ## The jump address -/

/-- A jump keeps the top four bits of the address after it and replaces the other 28 (R102). -/
theorem jumpAddress_toNat (pc : Word) (target : BitVec 26) :
    (jumpAddress pc target).toNat = (pc + 4).toNat / 2 ^ 28 * 2 ^ 28 + target.toNat * 4 := jump_toNat (pc + 4) target

/-- From a pc in the memory the top four bits are 0, so a jump goes to four times its target (R102). -/
theorem jumpAddress_toNat_of_pc_in_memory {pc : Word} (h : pc.toNat ≤ 0x3FFFC) (target : BitVec 26) :
    (jumpAddress pc target).toNat = target.toNat * 4 := by
  have htop : (pc + 4).toNat / 2 ^ 28 = 0 := by
    rw [pc_add_four_toNat]
    omega
  rw [jumpAddress_toNat, htop, Nat.zero_mul, Nat.zero_add]

/-! ## The statements -/

/-- Settles O44, by the row of OP_BEQ; the branch target is the integer sum of R101, and the other pc the next address,
both modulo 2^32. -/
theorem beqBranchesOnEqual : Obligations.BeqBranchesOnEqual := by
  constructor
  · intro w h
    exact (decode_of_iTypeRow h).trans (decode_iWord _ _ _ (by decide) (by decide))
  · intro rs rt imm s
    obtain ⟨hregs, hmem⟩ := setPc_frame s (if s.reg rs = s.reg rt then branchTarget s.pc imm else s.pc + 4)
    refine ⟨_, exec_beq rs rt imm s, hregs, hmem, ?_⟩
    exact if_congr Iff.rfl (branchTarget_eq s.pc imm) (BitVec.add_def ..)

/-- Settles O45, by the row of OP_J and the number of the jump address, in general and from a pc in the memory. -/
theorem jumpReplacesTheLow28Bits : Obligations.JumpReplacesTheLow28Bits := by
  constructor
  · intro w h
    exact decode_j h
  · intro target s
    obtain ⟨hregs, hmem⟩ := setPc_frame s (jumpAddress s.pc target)
    exact ⟨_, exec_j target s, hregs, hmem, jumpAddress_toNat s.pc target,
      fun h => jumpAddress_toNat_of_pc_in_memory h target⟩

end Sys2Proof.Machine
end

section
/-! PROOFS. The family of spec/60_exceptions.md: why a cycle halts, when it completes, and how a run ends. -/

namespace Sys2Proof.Machine

/-! ## Why a cycle halts -/

/-- At a misaligned pc the cycle halts with PcMisaligned, inside the memory or beyond it (R56, D8). -/
theorem step_pcMisaligned {s : State} (h : s.pc.toNat % 4 ≠ 0) : step s = .fault (.halt .pcMisaligned) := by
  rcases step_cases s with ⟨-, e⟩ | ⟨h4, -⟩ | ⟨h4, -⟩ | ⟨i, ⟨h4, -⟩, -⟩
  · exact e
  all_goals exact absurd h4 h

/-- A cycle halts with one of four causes, each under its own condition: three are the Fetcher's, one is the data
access's (R113). -/
theorem step_halt_cases {s : State} {c : HaltCause} (h : step s = .fault (.halt c)) :
    (c = .pcMisaligned ∧ s.pc.toNat % 4 ≠ 0) ∨
      (c = .pcOutOfRange ∧ s.pc.toNat % 4 = 0 ∧ 0x40000 ≤ s.pc.toNat) ∨
      (c = .illegalInstruction ∧
        s.pc.toNat % 4 = 0 ∧ s.pc.toNat < 0x40000 ∧ legal (s.mem.word (s.pc.toNat / 4)) = false) ∨
      (c = .dataMisaligned ∧ ∃ i a, Runs s i ∧ i.dataAddress s = some a ∧ a.toNat % 4 ≠ 0) := by
  rcases step_cases s with ⟨hm, e⟩ | ⟨h4, hout, e⟩ | ⟨h4, hin, hl, e⟩ | ⟨i, hr, -, e⟩ <;> rw [e] at h
  · cases h
    exact .inl ⟨rfl, hm⟩
  · cases h
    exact .inr (.inl ⟨rfl, h4, hout⟩)
  · cases h
    exact .inr (.inr (.inl ⟨rfl, h4, by omega, hl⟩))
  · obtain ⟨a, ha, hc⟩ := (exec_fault_iff i s _).1 h
    rcases checkDataAddress_error hc with ⟨hf, hm⟩ | ⟨hf, -⟩ <;> cases hf
    exact .inr (.inr (.inr ⟨rfl, i, a, hr, ha, hm⟩))

/-- The two defensive causes halt no cycle (R59, R69, R110). -/
theorem step_halt_ne_defensive {s : State} {c : HaltCause} (h : step s = .fault (.halt c)) :
    c ≠ .controlDecodeFault ∧ c ≠ .aluFunctFault := by
  rcases step_halt_cases h with ⟨rfl, -⟩ | ⟨rfl, -⟩ | ⟨rfl, -⟩ | ⟨rfl, -⟩ <;> decide

/-! ## When a cycle completes -/

theorem checkDataAddress_ok_iff (a : Word) : checkDataAddress a = .ok () ↔ Accessible a := by
  refine ⟨fun h => ?_, fun ⟨h4, hin⟩ => checkDataAddress_inside h4 hin⟩
  rcases checkDataAddress_cases a with ⟨-, e⟩ | ⟨-, -, e⟩ | ⟨h4, hidx, -⟩
  · cases e.symm.trans h
  · cases e.symm.trans h
  · rw [config_memWords] at hidx
    exact ⟨h4, by omega⟩

/-- An instruction completes exactly when its data address, if it has one, is accessible (R96). -/
theorem exec_completes_iff (i : Instr) (s : State) :
    (∃ t, exec i s = .next t) ↔ ∀ a, i.dataAddress s = some a → Accessible a := by
  constructor
  · rintro ⟨t, ht⟩ a ha
    rw [← checkDataAddress_ok_iff]
    cases hc : checkDataAddress a with
    | ok _ => rfl
    | error f => cases ht.symm.trans ((exec_fault_iff i s f).2 ⟨a, ha, hc⟩)
  · intro h
    cases he : exec i s with
    | next t => exact ⟨t, rfl⟩
    | fault f =>
      obtain ⟨a, ha, hc⟩ := (exec_fault_iff i s f).1 he
      cases hc.symm.trans ((checkDataAddress_ok_iff a).2 (h a ha))
    | refused r => exact absurd he (exec_ne_refused i s r)

/-! ## How a run halts -/

/-- A run that starts where the cycle halts completes no cycle and stays there (R114, R116). -/
theorem runFrom_of_halt {u : State} {c : HaltCause} (h : step u = .fault (.halt c)) (n : Nat) :
    runFrom u (n + 1) = (0, .halted c u) := by
  rw [runFrom, (invoke_halted_iff u u c).2 ⟨h, rfl⟩]

/-- A run that halts stands at a state it reaches in fewer cycles than it may take, and the cycle there halts (R134). -/
theorem runFrom_halted {s u : State} {n k : Nat} {c : HaltCause} (h : runFrom s n = (k, .halted c u)) :
    Reaches s u ∧ k < n ∧ step u = .fault (.halt c) := by
  obtain ⟨k', u', hr, ⟨-, e⟩ | ⟨hk, -, e⟩⟩ := runFrom_cases s n
  · cases h.symm.trans e
  · obtain ⟨rfl, hinv⟩ := Prod.mk.inj (h.symm.trans e)
    obtain ⟨hstep, rfl⟩ := (invoke_halted_iff u' u c).1 hinv.symm
    exact ⟨hr, hk, hstep⟩

/-- Where a reached state halts, every run that is long enough ends. -/
theorem Reaches.runFrom_halted {s u : State} {c : HaltCause} (h : Reaches s u) (e : step u = .fault (.halt c)) :
    ∃ k, ∀ n, Machine.runFrom s (k + (n + 1)) = (k, .halted c u) := by
  obtain ⟨k, hk⟩ := h.runFrom
  exact ⟨k, fun n => by rw [hk, runFrom_of_halt e, Nat.add_zero]⟩

/-- A run has one halt: two runs of one length, long enough for both halts, are one run. -/
theorem Reaches.halt_unique {s u u' : State} {c c' : HaltCause} (h : Reaches s u) (e : step u = .fault (.halt c))
    (h' : Reaches s u') (e' : step u' = .fault (.halt c')) : c = c' ∧ u = u' := by
  obtain ⟨k, hk⟩ := h.runFrom_halted e
  obtain ⟨k', hk'⟩ := h'.runFrom_halted e'
  have hlen : k' + (k + 1) = k + (k' + 1) := by omega
  have hrun := (hk k').symm.trans (hlen ▸ hk' k)
  exact Invocation.halted.inj (Prod.mk.inj hrun).2

/-- The runs that end normally are those that reach the expected illegal word at the expected address (R117). -/
theorem State.endsNormally_iff (s : State) (a w : Word) : s.EndsNormally a w ↔
    ∃ u, Reaches s u ∧ step u = .fault (.halt .illegalInstruction) ∧ u.pc = a ∧ u.mem.word (a.toNat / 4) = w := by
  constructor
  · rintro ⟨n, h⟩
    obtain ⟨u, hend, hpc, hw⟩ := (Invocation.endsNormally_iff _ a w).1 h
    have hrun : runFrom s n = ((runFrom s n).1, .halted .illegalInstruction u) := by rw [← hend]
    obtain ⟨hr, -, hstep⟩ := runFrom_halted hrun
    exact ⟨u, hr, hstep, hpc, hw⟩
  · rintro ⟨u, hr, hstep, hpc, hw⟩
    obtain ⟨k, hk⟩ := hr.runFrom_halted hstep
    exact ⟨k + (0 + 1), (Invocation.endsNormally_iff _ a w).2 ⟨u, by rw [hk 0], hpc, hw⟩⟩

/-! ## The statements -/

/-- Settles O18: each condition makes its own halt, and the conditions of `step_halt_cases` are all there are. -/
theorem haltCausesHappenExactlyWhen : Obligations.HaltCausesHappenExactlyWhen := by
  intro s
  refine ⟨⟨fun h => ?_, step_pcMisaligned⟩, ⟨fun h => ?_, fun ⟨h4, hout⟩ => step_pcOutOfRange h4 hout⟩,
    ⟨fun h => ?_, fun ⟨h4, hin, hl⟩ => step_of_illegal ⟨h4, by omega⟩ hl⟩,
    fun h => (step_halt_ne_defensive h).1 rfl, fun h => (step_halt_ne_defensive h).2 rfl, ⟨fun h => ?_, ?_⟩⟩
  · simpa using step_halt_cases h
  · simpa using step_halt_cases h
  · simpa using step_halt_cases h
  · simpa using step_halt_cases h
  · rintro ⟨i, a, hr, ha, hm⟩
    rw [step_of_runs hr]
    exact (exec_fault_iff i s _).2 ⟨a, ha, checkDataAddress_misaligned hm⟩

/-- Settles O21: a cycle that completes ran an instruction, and that instruction completed. -/
theorem cycleCompletesExactlyWhen : Obligations.CycleCompletesExactlyWhen := by
  intro s
  constructor
  · rintro ⟨t, ht⟩
    obtain ⟨i, hr, he⟩ := step_next ht
    exact ⟨i, hr, (exec_completes_iff i s).1 ⟨t, he⟩⟩
  · rintro ⟨i, hr, hacc⟩
    rw [step_of_runs hr]
    exact (exec_completes_iff i s).2 hacc

/-- Settles O26: the run halts in the state whose cycle halts, and a run from there is that cycle again. -/
theorem haltedRunStaysWhereItHalted : Obligations.HaltedRunStaysWhereItHalted := by
  intro s u n k c h
  obtain ⟨hr, hk, hstep⟩ := runFrom_halted h
  exact ⟨hr, hk, hstep, runFrom_of_halt hstep⟩

/-- Settles O54: the invocation that ends a run is not a completed one, and no cycle is refused. -/
theorem runEndsInOneOfThreeWays : Obligations.RunEndsInOneOfThreeWays := by
  intro s n
  obtain ⟨k, u, hr, hdone | ⟨hk, hstop, hrun⟩⟩ := runFrom_cases s n
  · exact ⟨k, u, hr, .inr (.inr hdone)⟩
  refine ⟨k, u, hr, ?_⟩
  cases hstep : step u with
  | next t => exact absurd ((invoke_completed_iff u t).2 hstep) (hstop t)
  | fault f =>
    cases f with
    | halt c =>
      obtain ⟨hctl, halu⟩ := step_halt_ne_defensive hstep
      rw [(invoke_halted_iff u u c).2 ⟨hstep, rfl⟩] at hrun
      exact .inl ⟨c, hk, rfl, hctl, halu, hrun⟩
    | unspecified r =>
      rw [(invoke_unspecified_iff u r).2 hstep] at hrun
      cases r
      exact .inr (.inl ⟨hk, rfl, hrun⟩)
  | refused r => exact absurd hstep (step_ne_refused u r)

/-- Settles O55: a normal end is a halt of the run, and a run has one halt. -/
theorem normalEndIsTheIllegalWordAtItsAddress : Obligations.NormalEndIsTheIllegalWordAtItsAddress := by
  refine ⟨State.endsNormally_iff, fun s a w a' w' h h' => ?_, fun s u n k c a w h hne hend => ?_⟩
  · obtain ⟨u, hr, hstep, rfl, rfl⟩ := (s.endsNormally_iff a w).1 h
    obtain ⟨u', hr', hstep', rfl, rfl⟩ := (s.endsNormally_iff a' w').1 h'
    obtain ⟨-, rfl⟩ := hr.halt_unique hstep hr' hstep'
    exact ⟨rfl, rfl⟩
  · obtain ⟨hr, -, hstep⟩ := runFrom_halted h
    obtain ⟨u', hr', hstep', hpc, -⟩ := (s.endsNormally_iff a w).1 hend
    obtain ⟨rfl, rfl⟩ := hr.halt_unique hstep hr' hstep'
    exact hne.elim (absurd rfl) (absurd hpc)

end Sys2Proof.Machine
end

section
/-! PROOFS. The family of spec/70_reset_and_hazards.md: a word placed where the next cycle fetches, and a transfer to
itself. -/

namespace Sys2Proof.Machine

/-! ## A placed word -/

/-- A loaded word is put where it can be fetched: at a fetchable pc, or at PC_RESET (log entry 18). -/
theorem loadAddress_accessible (s : State) : Accessible (loadAddress s) := by
  rw [loadAddress]
  split
  · next h =>
    obtain ⟨h4, hidx⟩ := h
    rw [config_memWords] at hidx
    exact ⟨h4, by omega⟩
  · exact ⟨rfl, by decide⟩

/-- The cycle after loading a legal word runs the word's instruction (R75, R131). -/
theorem loadWord_runs {s : State} {w : Word} {i : Instr} (hm : s.mem.wf) (hd : decode w = .ok i) :
    Runs (loadWord s w) i := by
  have hacc := loadAddress_accessible s
  have hword : (loadWord s w).mem.word ((loadAddress s).toNat / 4) = w := Memory.word_setWord_self hm hacc.word.1 w
  exact ⟨hacc.1, hacc.2, (congrArg decode hword).trans hd⟩

theorem State.withFetchWord_eq_loadWord (s : State) (w : Nat) :
    s.withFetchWord 32 w = loadWord s (BitVec.ofNat 32 w) := by
  have hbits : BitVec.ofNat 32 (w % 2 ^ 32) = BitVec.ofNat 32 w := BitVec.eq_of_toNat_eq (by simp)
  rw [State.withFetchWord, hbits]

/-! ## A transfer to itself -/

/-- A branch at offset -1 goes back to itself: the 4 of the next address cancels (R139). -/
theorem branchTarget_neg_one (pc : Word) : branchTarget pc 0xFFFF = pc := by
  have hoff : branchOffset 0xFFFF = -4 := by decide
  rw [branchTarget, hoff, add_neg_cancel_right]

/-- A jump in the memory whose target field names the pc goes back to itself (R102, R139). -/
theorem jumpAddress_self {pc : Word} {target : BitVec 26} (hin : pc.toNat ≤ 0x3FFFC)
    (h : pc.toNat = target.toNat * 4) : jumpAddress pc target = pc :=
  BitVec.eq_of_toNat_eq ((jumpAddress_toNat_of_pc_in_memory hin target).trans h.symm)

/-- A machine whose step from a state gives that state back ends every run from there in that state. -/
theorem run_of_step_self {M : Host.Core} {s : M.State} (h : M.step s = .next s) (n : Nat) : M.run n s = .next s := by
  induction n with
  | zero => rfl
  | succ n ih => simp only [Host.Core.run, h, ih]

/-! ## The statements -/

/-- Settles O27: the placed word is fetched, whether or not the pc had to be moved for it. -/
theorem loadedWordRunsNext : Obligations.LoadedWordRunsNext := by
  intro s w i hm hd
  rw [State.withFetchWord_eq_loadWord]
  exact step_of_runs (loadWord_runs hm hd)

/-- Settles O46: the next pc is the pc, so the cycle gives the state back, and so does every run of such cycles. -/
theorem branchOrJumpToItselfLoopsForever : Obligations.BranchOrJumpToItselfLoopsForever := by
  constructor
  · intro s r hr
    have hself : step s = .next s := by
      rw [step_of_runs hr, exec_beq, if_pos rfl, branchTarget_neg_one, State.setPc_self]
    exact run_of_step_self (M := core) hself
  · intro s target hr hpc
    have ⟨_, hin, _⟩ := hr
    have hself : step s = .next s := by
      rw [step_of_runs hr, exec_j, jumpAddress_self hin hpc, State.setPc_self]
    exact run_of_step_self (M := core) hself

end Sys2Proof.Machine
end

section
/-! PROOFS. The family of spec/30_encoding.md: the decoder on the encoder's words. -/

namespace Sys2Proof.Machine

/-! ## The decoder on the encoder's words -/

/-- Each format's word decodes by its opcode and funct, and no two rows of R46 share these (R42 to R46, R50). -/
theorem decode_encode (i : Instr) : decode (encode i) = .ok i := by
  cases i with
  | add rd rs rt | sub rd rs rt | and rd rs rt | or rd rs rt | slt rd rs rt | sltu rd rs rt =>
    exact decode_rWord _ rd rs rt
  | addi rt rs imm | slti rt rs imm | sltiu rt rs imm | lw rt rs imm | sw rt rs imm | beq rs rt imm =>
    exact decode_iWord rs rt imm (by decide) (by decide)
  | lui rt imm => exact decode_iWord 0 rt imm (by decide) (by decide)
  | j target =>
    obtain ⟨hop, htarget⟩ := jWord_fields config.opJ target
    exact (decode_j hop).trans (by rw [htarget])

/-- The words that decode to an instruction are its encoding and the words that differ from it in ignored bits only
(R49, R51). -/
theorem decode_eq_ok_iff (w : Word) (i : Instr) : decode w = .ok i ↔ clearIgnored w = encode i := by
  constructor
  · exact fun h => (encodeDecodeKeepsReadBits w i h).symm
  · intro h
    rw [← decode_clearIgnored, h, decode_encode]

/-! ## The statements -/

/-- Settles O2, by the fields of each format's words. -/
theorem decodeEncodeRoundTrip : Obligations.DecodeEncodeRoundTrip := decode_encode

/-- Settles O1: the sixteen words with their ignored bits cleared are the encoder's words, and the other three have an
opcode or a funct of no row. -/
theorem specWordsDecode : Obligations.SpecWordsDecode := by
  simp only [Obligations.SpecWordsDecode, decode_eq_ok_iff]
  decide

end Sys2Proof.Machine
end
